-- ==== Sys2Proof/Word.lean ====
section
/-! DEFINITION. The two widths of the core (00_scope.md R3): a byte (registers A, X, Y, SP, a memory
cell, an operand byte) and a word (the program counter, an address). -/

namespace Sys2Proof

/-- An 8-bit value (R3): a register, a memory cell, an opcode or an operand byte. -/
abbrev Byte := BitVec 8

/-- A 16-bit value (R3): the program counter or an address. -/
abbrev Word := BitVec 16

end Sys2Proof
end

