-- ==== Sys2Proof/Syntax.lean ====
section
/-! DEFINITION. The instructions: one constructor for each of the 20 rows of the opcode map
(30_encoding.md R87, spec/opcode_table.json), carrying its operands already assembled (R85), and the
four formats (R80). -/

namespace Sys2Proof

/-- The four instruction formats, after the source's Mode column (R80). -/
inductive Format where
  /-- Implied: no operand byte (R81). -/
  | imp
  /-- Immediate: one operand byte, the value itself (R82). -/
  | imm
  /-- Zero-page: one operand byte, an address in page zero (R83). -/
  | zp
  /-- Absolute: two operand bytes, a 16-bit address, low byte first (R84). -/
  | abs
  deriving DecidableEq, Repr

/-- How many operand bytes follow the opcode byte (R81 to R84). -/
def Format.operandBytes : Format → Nat
  | .imp => 0
  | .imm => 1
  | .zp => 1
  | .abs => 2

/-- The length of an instruction in bytes (R80): the opcode byte and its operand bytes. -/
def Format.length (f : Format) : Nat := f.operandBytes + 1

/-- The 20 instructions (R87). An immediate or zero-page operand is the byte as fetched; an absolute
operand is the word `hi * 256 + lo` (R85). -/
inductive Instr where
  /-- BRK, `00` (R100). -/
  | brk
  /-- NOP, `EA` (R101). -/
  | nop
  /-- LDA #, `A9 imm8` (R110). -/
  | ldaImm (imm : Byte)
  /-- LDA zero-page, `A5 zp8` (R111). -/
  | ldaZp (zp : Byte)
  /-- LDA absolute, `AD lo hi` (R112). -/
  | ldaAbs (addr : Word)
  /-- STA zero-page, `85 zp8` (R113). -/
  | staZp (zp : Byte)
  /-- STA absolute, `8D lo hi` (R114). -/
  | staAbs (addr : Word)
  /-- LDX #, `A2 imm8` (R115). -/
  | ldxImm (imm : Byte)
  /-- INX, `E8` (R130). -/
  | inx
  /-- DEX, `CA` (R131). -/
  | dex
  /-- JMP absolute, `4C lo hi` (R140). -/
  | jmpAbs (target : Word)
  /-- JSR absolute, `20 lo hi` (R141). -/
  | jsrAbs (target : Word)
  /-- RTS, `60` (R142). -/
  | rts
  /-- SEI, `78` (R150). -/
  | sei
  /-- CLD, `D8` (R151). -/
  | cld
  /-- TXS, `9A` (R160). -/
  | txs
  /-- TSX, `BA` (R161). -/
  | tsx
  /-- PHA, `48` (R162). -/
  | pha
  /-- PLA, `68` (R163). -/
  | pla
  /-- ADC #, `69 imm8` (R170). -/
  | adcImm (imm : Byte)
  deriving DecidableEq, Repr

/-- The format of each instruction (R87). -/
def Instr.format : Instr → Format
  | .brk => .imp
  | .nop => .imp
  | .ldaImm _ => .imm
  | .ldaZp _ => .zp
  | .ldaAbs _ => .abs
  | .staZp _ => .zp
  | .staAbs _ => .abs
  | .ldxImm _ => .imm
  | .inx => .imp
  | .dex => .imp
  | .jmpAbs _ => .abs
  | .jsrAbs _ => .abs
  | .rts => .imp
  | .sei => .imp
  | .cld => .imp
  | .txs => .imp
  | .tsx => .imp
  | .pha => .imp
  | .pla => .imp
  | .adcImm _ => .imm

end Sys2Proof
end

