-- ==== Sys2Proof/Decode.lean ====
section
/-! DEFINITION. The opcode map, the decoder and the encoder (30_encoding.md). The decoder is a flat
lookup on all eight bits of the opcode byte (R86); it is total on any list of bytes and rejects by
name. The encoder is written from the encodings of the instruction rules. -/

namespace Sys2Proof

/-- A 16-bit value from its two bytes, low byte first: `hi * 256 + lo` (R9, R61, R84). -/
def wordOf (lo hi : Byte) : Word := hi ++ lo

/-- The low byte of a word, `w[7:0]` (R6). -/
def loByte (w : Word) : Byte := w.extractLsb' 0 8

/-- The high byte of a word, `w[15:8]` (R6). -/
def hiByte (w : Word) : Byte := w.extractLsb' 8 8

/-- How an instruction term is made from its operand bytes: from none, from one byte as fetched, or
from the word that two bytes form (R85). -/
inductive OperandShape where
  | implied (i : Instr)
  | byte (make : Byte → Instr)
  | word (make : Word → Instr)

/-- One row of the opcode map (R87): the opcode byte, the format, the Cycles column and the
instruction it names. -/
structure OpcodeRow where
  opcode : Byte
  format : Format
  cycles : Nat
  shape : OperandShape

/-- The complete opcode map, in the order of the source's table (R87). -/
def opcodeMap : List OpcodeRow :=
  [ ⟨0x00, .imp, 7, .implied .brk⟩,
    ⟨0xEA, .imp, 2, .implied .nop⟩,
    ⟨0xA9, .imm, 2, .byte .ldaImm⟩,
    ⟨0xA5, .zp, 3, .byte .ldaZp⟩,
    ⟨0xAD, .abs, 4, .word .ldaAbs⟩,
    ⟨0x85, .zp, 3, .byte .staZp⟩,
    ⟨0x8D, .abs, 4, .word .staAbs⟩,
    ⟨0xA2, .imm, 2, .byte .ldxImm⟩,
    ⟨0xE8, .imp, 2, .implied .inx⟩,
    ⟨0xCA, .imp, 2, .implied .dex⟩,
    ⟨0x4C, .abs, 3, .word .jmpAbs⟩,
    ⟨0x20, .abs, 6, .word .jsrAbs⟩,
    ⟨0x60, .imp, 6, .implied .rts⟩,
    ⟨0x78, .imp, 2, .implied .sei⟩,
    ⟨0xD8, .imp, 2, .implied .cld⟩,
    ⟨0x9A, .imp, 2, .implied .txs⟩,
    ⟨0xBA, .imp, 2, .implied .tsx⟩,
    ⟨0x48, .imp, 3, .implied .pha⟩,
    ⟨0x68, .imp, 4, .implied .pla⟩,
    ⟨0x69, .imm, 2, .byte .adcImm⟩ ]

/-- The flat lookup on the opcode byte (R86): no internal field of the byte is used. -/
def lookupOpcode (op : Byte) : Option OpcodeRow := opcodeMap.find? (fun r => r.opcode == op)

/-- What decoding a list of bytes gives. -/
inductive Decoded where
  /-- An instruction and the bytes after it. -/
  | ok (i : Instr) (rest : List Byte)
  /-- The first byte has no decode entry (R88). -/
  | unsupportedOpcode (op : Byte)
  /-- The list ends before the instruction does; a fetch never gives such a list. -/
  | truncated
  deriving DecidableEq, Repr

/-- The decoder (R80, R86, R87): the opcode byte alone selects the operation, the format and the
length; operand bytes are never decoded (R90). -/
def decode : List Byte → Decoded
  | [] => .truncated
  | op :: rest =>
    match lookupOpcode op with
    | none => .unsupportedOpcode op
    | some row =>
      match row.shape, rest with
      | .implied i, rest => .ok i rest
      | .byte make, b :: rest => .ok (make b) rest
      | .word make, lo :: hi :: rest => .ok (make (wordOf lo hi)) rest
      | .byte _, [] => .truncated
      | .word _, _ => .truncated

/-- The bytes of each instruction, at ascending addresses (R81 to R84 and the Encoding line of each
instruction rule). -/
def encode : Instr → List Byte
  | .brk => [0x00]
  | .nop => [0xEA]
  | .ldaImm imm => [0xA9, imm]
  | .ldaZp zp => [0xA5, zp]
  | .ldaAbs addr => [0xAD, loByte addr, hiByte addr]
  | .staZp zp => [0x85, zp]
  | .staAbs addr => [0x8D, loByte addr, hiByte addr]
  | .ldxImm imm => [0xA2, imm]
  | .inx => [0xE8]
  | .dex => [0xCA]
  | .jmpAbs target => [0x4C, loByte target, hiByte target]
  | .jsrAbs target => [0x20, loByte target, hiByte target]
  | .rts => [0x60]
  | .sei => [0x78]
  | .cld => [0xD8]
  | .txs => [0x9A]
  | .tsx => [0xBA]
  | .pha => [0x48]
  | .pla => [0x68]
  | .adcImm imm => [0x69, imm]

/-- The three bytes (the longest instruction, R80) of a table word: bit 0 of `w` is bit 0 of the
first byte, a later byte's bits count on, and every bit at or above `nbits` is 0. -/
def tableWordBytes (nbits w : Nat) : List Byte :=
  let v := w % 2 ^ nbits
  [BitVec.ofNat 8 v, BitVec.ofNat 8 (v / 256), BitVec.ofNat 8 (v / 65536)]

/-- The instruction the decoder reads from a word numbered as spec/opcode_table.json numbers it. -/
def decodeTableWord (nbits w : Nat) : Option Instr :=
  match decode (tableWordBytes nbits w) with
  | .ok i _ => some i
  | .unsupportedOpcode _ => none
  | .truncated => none

end Sys2Proof
end

