-- ==== Sys2Proof/Config.lean ====
section
/-! DEFINITION. The parameters of 00_scope.md R3 that are fixed before a run: whether ADC writes the
Overflow flag (`ADC_V_MODE`) and which of the two PRG ROM sizes the bus was built with (`PRG_SIZE`).
`INIT_A`, `INIT_X`, `INIT_Y` and `PRG` are arguments of `Machine.construct` (Machine/Boot.lean) and
`MAX_STEPS` is an argument of `Machine.runLoop` (Machine/Run.lean). -/

namespace Sys2Proof.Config

/-- `ADC_V_MODE` (R3, R172): the two readings of the source's ADC contract. -/
inductive AdcVMode where
  /-- ADC does not write `P.V`. -/
  | unchanged
  /-- ADC writes `P.V` with the two's-complement overflow of the addition. -/
  | signedOverflow
  deriving DecidableEq, Repr

/-- The value of `ADC_V_MODE` for this hardware (R3, R172, conflict C1): `unchanged`. Log entry 3. -/
def adcVMode : AdcVMode := .unchanged

/-- The two PRG ROM sizes the source gives a meaning (R3, R55, D10). A ROM of any other size cannot
be put into `State`: `Machine.construct` refuses it before the first step. Log entry 5. -/
inductive PrgSize where
  /-- 16 KiB, mirrored twice in the 32 KiB window. -/
  | kib16
  /-- 32 KiB, mapped directly. -/
  | kib32
  deriving DecidableEq, Repr

/-- `PRG_SIZE` in bytes (R55). -/
def PrgSize.bytes : PrgSize → Nat
  | .kib16 => 16384
  | .kib32 => 32768

/-- The size class of a PRG buffer by its length; no other length has one (R55, D10). -/
def PrgSize.ofLength? (n : Nat) : Option PrgSize :=
  if n = 16384 then some .kib16 else if n = 32768 then some .kib32 else none

end Sys2Proof.Config
end

