-- ==== Sys2Proof/Machine/Memory.lean ====
section
/-! DEFINITION. A byte memory as a list of (index, byte) pairs in one canonical form: indices strictly
rising and no entry equal to what an unlisted index reads as, so that equal memories are equal data.
The machine has two: the RAM cells 0x000 to 0x7FF (20_memory.md R54) and the PRG buffer (R55). -/

namespace Sys2Proof.Machine

/-- A byte memory by index, in canonical form (`Memory.wf`). -/
abbrev Memory := List Host.Cell

/-- What an unlisted index reads as. For RAM the spec gives it: RAM is zero when the bus is
constructed (R58). For the PRG buffer it only says how a 0x00 byte of the image is held. -/
def blankByte : Byte := 0x00

/-- The byte at index `a`. -/
def Memory.read : Memory → Nat → Byte
  | [], _ => blankByte
  | (k, v) :: m, a => if k = a then v else Memory.read m a

/-- Drop every entry for index `a`. -/
def Memory.erase : Memory → Nat → Memory
  | [], _ => []
  | (k, v) :: m, a => if k = a then Memory.erase m a else (k, v) :: Memory.erase m a

/-- Put an entry for an index that has none, keeping indices rising. -/
def Memory.insert : Memory → Nat → Byte → Memory
  | [], a, v => [(a, v)]
  | (k, w) :: m, a, v => if a < k then (a, v) :: (k, w) :: m else (k, w) :: Memory.insert m a v

/-- Store `v` at index `a`: storing what an unlisted index reads as removes the entry. -/
def Memory.write (m : Memory) (a : Nat) (v : Byte) : Memory :=
  if v = blankByte then m.erase a else (m.erase a).insert a v

/-- The memory holding a buffer's bytes from index `start` on. -/
def Memory.ofBytesFrom : Nat → List Byte → Memory
  | _, [] => []
  | start, b :: bs =>
    if b = blankByte then Memory.ofBytesFrom (start + 1) bs
    else (start, b) :: Memory.ofBytesFrom (start + 1) bs

/-- The canonical form. -/
abbrev Memory.wf (m : Memory) : Prop :=
  m.Pairwise (fun c d => c.1 < d.1) ∧ ∀ c ∈ m, c.2 ≠ blankByte

/-- Every listed index is below `n`. -/
abbrev Memory.below (m : Memory) (n : Nat) : Prop := ∀ c ∈ m, c.1 < n

end Sys2Proof.Machine
end

