-- ==== Sys2Proof/Machine/State.lean ====
section
/-! DEFINITION. The state as plain data: the six registers of the core (10_state.md R20 to R41), the
memory behind the bus (20_memory.md R53), and what the spec gives the environment to see of the last
event (00_scope.md R4, R5; 20_memory.md R66; 60_exceptions.md R203). -/

namespace Sys2Proof.Machine

/-- The status register P as its flags (R28, R29). Bit 5, Unused, "is always set" (R35): it is not
stored, and `Status.toByte` (Machine/Flags.lean) gives it as 1. The other seven bits stand under the
names of R7. No instruction reads or writes P as a whole byte (R28). -/
structure Status where
  /-- `P.C`, Carry (R30). -/
  c : Bool
  /-- `P.Z`, Zero (R31). -/
  z : Bool
  /-- `P.I`, InterruptDisable (R32). -/
  i : Bool
  /-- `P.D`, Decimal (R33). -/
  d : Bool
  /-- `P.B`, Break (R34). -/
  b : Bool
  /-- `P.V`, Overflow (R36). -/
  v : Bool
  /-- `P.N`, Negative (R37). -/
  n : Bool
  deriving DecidableEq, Repr

/-- P after reset, "Unused|InterruptDisable" (R41, R240). -/
def Status.afterReset : Status :=
  { c := false, z := false, i := true, d := false, b := false, v := false, n := false }

/-- "The six registers are the whole state of the core" (R40). -/
structure Registers where
  /-- The accumulator (R20, R21). -/
  a : Byte
  /-- Index X (R20, R22). -/
  x : Byte
  /-- Index Y (R20, R23): no instruction reads or writes it. -/
  y : Byte
  /-- The stack pointer, an offset into the page 0x0100 to 0x01FF (R27). -/
  sp : Byte
  /-- The program counter (R24). -/
  pc : Word
  /-- The status register (R28). -/
  p : Status
  deriving DecidableEq, Repr

/-- One transaction of the bus master port (R4, R66), with the byte it moved. -/
inductive BusTxn where
  | read (addr : Word) (v : Byte)
  | write (addr : Word) (v : Byte)
  deriving DecidableEq, Repr

/-- How a completed step answers the environment (R5), with its cycle cost (R262). The third outcome
of R5, a fault, is a `Fault` of the step. -/
inductive Report where
  /-- `Done(c)`: the instruction completed. -/
  | done (cycles : Nat)
  /-- `Halt(c)`: the instruction was BRK; it completed and the core signals halt. -/
  | halt (cycles : Nat)
  deriving DecidableEq, Repr

/-- Where a run stands; kept by the model, not a register of the core (R40, R203, R243). -/
inductive Phase where
  /-- Constructed, never reset: SP, P and PC are not defined (R243, D15). -/
  | notReset
  /-- Reset has been applied and no fault is recorded since. -/
  | running
  /-- An UnsupportedOpcode ended the run; only reset is accepted (R203, D7). -/
  | faulted
  deriving DecidableEq, Repr

/-- The machine: the core's registers, the Memory/Bus it owns, and the observable answer of the last
event. -/
structure State extends Registers where
  /-- The 2 KiB of RAM by cell number 0x000 to 0x7FF (R54). -/
  ram : Memory
  /-- The PRG buffer by its own index (R55); no step changes it (R57, R58). -/
  prg : Memory
  /-- The size of the PRG buffer (R3, R55). -/
  prgSize : Config.PrgSize
  /-- The run's mark (R203, R243). -/
  phase : Phase
  /-- The answer of the last step (R5); none after a reset (R240: no cycle cost is reported). -/
  report : Option Report
  /-- The bus transactions of the last step or reset, oldest first (R66). -/
  bus : List BusTxn
  deriving DecidableEq, Repr

/-- The core's one fault (R201). Raised by `raiseUnsupportedOpcode` alone, for an opcode byte that
has no decode entry. Safe: the spec makes it fatal to the run (R203). -/
inductive Fault where
  /-- `UnsupportedOpcode(op)` with the state it leaves behind: PC one past the offending byte, every
  other register and all memory as before the step, the run marked faulted (R201, R203). -/
  | unsupportedOpcode (op : Byte) (left : State)
  deriving DecidableEq, Repr

/-- What the model gives no meaning to. -/
inductive Refusal where
  /-- An instruction whose arm has no meaning yet; no arm of this model answers it. Safe. -/
  | notModelled (mnemonic : String)
  /-- A step of a core that was never reset: "a run without a leading reset is not modelled" (U5,
  R243, D15). Raised by `step`. Safe. -/
  | stepBeforeReset
  /-- A step after an UnsupportedOpcode without a reset: "no meaning; only reset is accepted" (U3,
  R203, D7). Raised by `step`. Safe. -/
  | stepAfterFault
  /-- A PRG buffer of a size other than 16384 or 32768: "such a configuration is rejected before the
  first step" (U1, R55, D10). Raised by `construct`. Safe. -/
  | prgSizeUnsupported (size : Nat)
  deriving DecidableEq, Repr

/-- The machine right after reset (R41, R240). SP and P hold the values the spec gives. A, X, Y hold
0x00, the model's choice for the open INIT_A, INIT_X, INIT_Y (log entry 1). The PRG buffer, which the
environment supplies, is a blank 32 KiB (log entry 2), so the vector reads 0x0000 and so does PC. RAM
is zero (R58). The bus shows the two vector reads of the reset (R66). -/
def State.reset : State :=
  { a := 0x00, x := 0x00, y := 0x00, sp := 0xFD, pc := 0x0000, p := Status.afterReset,
    ram := [], prg := [], prgSize := .kib32, phase := .running, report := none,
    bus := [.read 0xFFFC 0x00, .read 0xFFFD 0x00] }

end Sys2Proof.Machine
end

