-- ==== Sys2Proof/Machine/Flags.lean ====
section
/-! DEFINITION. Every flag computation of the spec: `SetZN` (00_scope.md R10), the carry and the
optional overflow of ADC (46_arithmetic.md R170, R172), the single-flag writes of SEI, CLD and BRK,
and the byte that the snapshot shows (10_state.md R29). -/

namespace Sys2Proof.Machine

/-- `SetZN(v)` on the status register: Z iff `v` is zero, N a copy of bit 7, the rest kept (R10). -/
def Status.setZN (p : Status) (v : Byte) : Status := { p with z := v == 0, n := v.getLsbD 7 }

/-- `P.I <- 1` (R150). -/
def Status.setI (p : Status) : Status := { p with i := true }

/-- `P.D <- 0` (R151). -/
def Status.clearD (p : Status) : Status := { p with d := false }

/-- `P.B <- 1` (R100). -/
def Status.setB (p : Status) : Status := { p with b := true }

/-- The wide sum of ADC, a natural number 0 to 511, never reduced (R170). -/
def adcSum (a m : Byte) (carry : Bool) : Nat := a.toNat + m.toNat + carry.toNat

/-- `Overflow(a, m, sum)` of the optional `signed_overflow` reading: bit 7 of
`(a xor r) and (m xor r)` with `r` the sum mod 256 (R172; general knowledge G3, log entry 3). -/
def adcOverflow (a m : Byte) (sum : Nat) : Bool :=
  let r : Byte := BitVec.ofNat 8 sum
  ((a ^^^ r) &&& (m ^^^ r)).getLsbD 7

/-- The flags of ADC before `SetZN`: C says whether the wide sum exceeds 255, on every ADC (R170,
D18); V is written in `signed_overflow` mode only (R172). D is not consulted (R171). -/
def Status.setAdc (p : Status) (mode : Config.AdcVMode) (a m : Byte) (sum : Nat) : Status :=
  match mode with
  | .unchanged => { p with c := decide (255 < sum) }
  | .signedOverflow => { p with c := decide (255 < sum), v := adcOverflow a m sum }

/-- One flag as a bit at position `k` of the status byte. -/
def flagBit (f : Bool) (k : Nat) : Byte := if f then BitVec.ofNat 8 (2 ^ k) else 0

/-- P as the byte the snapshot shows (R4, R28), at the bit positions of R29 (D2, log entry 4), with
Unused read as 1 (R35). -/
def Status.toByte (p : Status) : Byte :=
  flagBit p.c 0 ||| flagBit p.z 1 ||| flagBit p.i 2 ||| flagBit p.d 3 ||| flagBit p.b 4 ||| 0x20 |||
    flagBit p.v 6 ||| flagBit p.n 7

/-- The flags that a status byte shows (R29); bit 5 is not stored (R35). -/
def Status.ofByte (v : Byte) : Status :=
  { c := v.getLsbD 0, z := v.getLsbD 1, i := v.getLsbD 2, d := v.getLsbD 3, b := v.getLsbD 4,
    v := v.getLsbD 6, n := v.getLsbD 7 }

end Sys2Proof.Machine
end

