-- ==== Sys2Proof/Machine/Ops.lean ====
section
/-! DEFINITION. The named operations over registers and memory from which every meaning is built: the
register writers, the bus contract MemRead and MemWrite (20_memory.md R51, R52), the primitives
Fetch8, Push8, Pop8, Push16, Pop16, SetZN and raise (00_scope.md R8 to R15), and reset
(70_reset_and_hazards.md R240). -/

namespace Sys2Proof.Machine

/-! ## Register writers -/

/-- `A <- v`. -/
def State.setA (s : State) (v : Byte) : State := { s with a := v }

/-- `X <- v`. -/
def State.setX (s : State) (v : Byte) : State := { s with x := v }

/-- `SP <- v`. -/
def State.setSp (s : State) (v : Byte) : State := { s with sp := v }

/-- `PC <- v`. -/
def State.setPc (s : State) (v : Word) : State := { s with pc := v }

/-- Replace the status register. -/
def State.setP (s : State) (v : Status) : State := { s with p := v }

/-- Replace the contents of RAM. -/
def State.setRam (s : State) (m : Memory) : State := { s with ram := m }

/-- Mark the run (R203, R243). -/
def State.setPhase (s : State) (ph : Phase) : State := { s with phase := ph }

/-- Record the answer of a completed step (R5). -/
def State.setReport (s : State) (r : Option Report) : State := { s with report := r }

/-- Record a bus transaction, after those already made (R66). -/
def State.logBus (s : State) (e : BusTxn) : State := { s with bus := s.bus ++ [e] }

/-- An event begins: nothing is reported and no bus transaction has been made yet. -/
def State.begin (s : State) : State := { s with report := none, bus := [] }

/-- `SetZN(v)` (R10). -/
def State.setZN (s : State) (v : Byte) : State := s.setP (s.p.setZN v)

/-! ## The bus -/

/-- The RAM cell that an address below 0x2000 designates (R54). -/
def ramCell (addr : Word) : Nat := addr.toNat % 0x800

/-- `RomIndex(addr)` for an address in 0x8000 to 0xFFFF: a 16 KiB ROM is mirrored, a 32 KiB ROM maps
directly (R55). -/
def romIndex (size : Config.PrgSize) (addr : Word) : Nat :=
  match size with
  | .kib16 => (addr.toNat - 0x8000) % 16384
  | .kib32 => addr.toNat - 0x8000

/-- The byte `MemRead(addr, 1)` returns: RAM below 0x2000, 0x00 in the empty window 0x2000 to 0x7FFF,
PRG ROM from 0x8000 on (R51, R53, R56). Total, and it changes no state. -/
def State.peek (s : State) (addr : Word) : Byte :=
  if addr.toNat < 0x2000 then s.ram.read (ramCell addr)
  else if addr.toNat < 0x8000 then 0x00
  else s.prg.read (romIndex s.prgSize addr)

/-- `MemRead(addr, 1)` as a bus transaction of the core (R51, R66). -/
def memRead (addr : Word) (s : State) : Byte × State :=
  (s.peek addr, s.logBus (.read addr (s.peek addr)))

/-- `MemWrite(addr, 1, v)`: below 0x2000 the RAM cell is written, elsewhere the write is silently
discarded (R52, R57); the transaction is made in both cases (R66). -/
def memWrite (addr : Word) (v : Byte) (s : State) : State :=
  (if addr.toNat < 0x2000 then s.setRam (s.ram.write (ramCell addr) v) else s).logBus (.write addr v)

/-! ## Fetch -/

/-- `Fetch8()`: the byte at PC, then PC advances by one with 16-bit wrap-around (R8). -/
def fetch8 (s : State) : Byte × State :=
  let r := memRead s.pc s
  (r.1, r.2.setPc (s.pc + 1))

/-- `n` bytes by `Fetch8()`, at ascending addresses (R8, R80). -/
def fetchBytes : Nat → State → List Byte × State
  | 0, s => ([], s)
  | n + 1, s =>
    let r := fetch8 s
    let rs := fetchBytes n r.2
    (r.1 :: rs.1, rs.2)

/-! ## The stack -/

/-- The stack cell that a stack pointer designates, `0x0100 + SP` (R27, R59). -/
def stackAddr (sp : Byte) : Word := 0x0100 + sp.setWidth 16

/-- `Push8(v)`: write at `0x0100 + SP`, then SP decrements modulo 256 (R11). -/
def push8 (v : Byte) (s : State) : State :=
  let t := memWrite (stackAddr s.sp) v s
  t.setSp (t.sp - 1)

/-- `Pop8()`: SP increments modulo 256, then read at `0x0100 + SP` (R12). -/
def pop8 (s : State) : Byte × State :=
  let t := s.setSp (s.sp + 1)
  memRead (stackAddr t.sp) t

/-- `Push16(w)`: the high byte first, then the low byte (R13). -/
def push16 (w : Word) (s : State) : State := push8 (loByte w) (push8 (hiByte w) s)

/-- `Pop16()`: the low byte first, then the high byte (R14). -/
def pop16 (s : State) : Word × State :=
  let lo := pop8 s
  let hi := pop8 lo.2
  (wordOf lo.1 hi.1, hi.2)

/-! ## How a step ends -/

/-- `outcome <- Done(c)` (R5). -/
def done (cycles : Nat) (s : State) : Host.Outcome State Fault Refusal :=
  .next (s.setReport (some (.done cycles)))

/-- `outcome <- Halt(c)` (R5, R205): a signal to the environment; the core goes on if stepped. -/
def halt (cycles : Nat) (s : State) : Host.Outcome State Fault Refusal :=
  .next (s.setReport (some (.halt cycles)))

/-- `raise UnsupportedOpcode(op)` (R15, R201): the one exception. The step ends at once in a fault
that carries the opcode byte and the state left behind, with the run marked faulted (R203). No trap
is entered: nothing is pushed, no vector is read (R208). There is no return from it (R209); the only
recovery is `applyReset`. -/
def raiseUnsupportedOpcode (op : Byte) (s : State) : Host.Outcome State Fault Refusal :=
  .fault (.unsupportedOpcode op (s.setPhase .faulted))

/-! ## Reset and the snapshot -/

/-- `Reset()` (R240): SP and P are written, PC is loaded from the little-endian vector at 0xFFFC; A, X,
Y and memory are kept (D3). It is accepted in every phase and starts a new run (R203, R241). -/
def applyReset (s : State) : State :=
  let t := ((s.begin.setPhase .running).setSp 0xFD).setP Status.afterReset
  let lo := memRead 0xFFFC t
  let hi := memRead 0xFFFD lo.2
  hi.2.setPc (wordOf lo.1 hi.1)

/-- What the environment reads between instructions (R4): A, X, Y, SP, PC and P as a byte. -/
structure Snapshot where
  a : Byte
  x : Byte
  y : Byte
  sp : Byte
  pc : Word
  p : Byte
  deriving DecidableEq, Repr

/-- The register snapshot of a state (R4, R214): reading it changes nothing. -/
def State.snapshot (s : State) : Snapshot :=
  { a := s.a, x := s.x, y := s.y, sp := s.sp, pc := s.pc, p := s.p.toByte }

end Sys2Proof.Machine
end

