-- ==== Sys2Proof/Machine/Operands.lean ====
section
/-! DEFINITION. The operand forms (30_encoding.md R85, 41_load_store.md R116, R117). The operand bytes
themselves are fetched by `fetchInstruction` (Machine/Fetch.lean) before the meaning runs, in the
order of 20_memory.md R66; here they become addresses and accesses. An immediate operand is its byte
and needs no form. -/

namespace Sys2Proof.Machine

/-- The effective address of a zero-page operand: `zext_16(zp8)` (R116, D21). -/
def zeroPageAddr (zp : Byte) : Word := zp.setWidth 16

/-- The effective address of an absolute operand: the fetched word itself (R117). -/
def absoluteAddr (addr : Word) : Word := addr

/-- `A <- v; SetZN(A)`, the tail of every load of A (R21). -/
def loadA (v : Byte) (s : State) : State := (s.setA v).setZN v

/-- `X <- v; SetZN(X)`, the tail of every write of X (R22). -/
def loadX (v : Byte) (s : State) : State := (s.setX v).setZN v

/-- `A <- MemRead(addr, 1); SetZN(A)` (R111, R112). -/
def loadAFrom (addr : Word) (s : State) : State :=
  let r := memRead addr s
  loadA r.1 r.2

/-- `MemWrite(addr, 1, A)` (R113, R114). -/
def storeATo (addr : Word) (s : State) : State := memWrite addr s.a s

end Sys2Proof.Machine
end

