-- ==== Sys2Proof/Machine/Arithmetic.lean ====
section
/-! DEFINITION. ADC immediate (46_arithmetic.md). -/

namespace Sys2Proof.Machine

/-- ADC under either value of `ADC_V_MODE` (R170, R172): the wide sum of A, the operand and the carry
gives C (and V where the mode says so), and its low eight bits go to A, Z and N. -/
def adcWith (mode : Config.AdcVMode) (m : Byte) (s : State) : State :=
  let sum := adcSum s.a m s.p.c
  loadA (BitVec.ofNat 8 sum) (s.setP (s.p.setAdc mode s.a m sum))

/-- ADC immediate (R170), with this hardware's `ADC_V_MODE` (R172, log entry 3). -/
def execAdcImm (imm : Byte) (s : State) : Host.Outcome State Fault Refusal :=
  done 2 (adcWith Config.adcVMode imm s)

end Sys2Proof.Machine
end

