-- ==== Sys2Proof/Machine/Control.lean ====
section
/-! DEFINITION. The control transfers JMP, JSR, RTS (43_control.md). -/

namespace Sys2Proof.Machine

/-- JMP absolute (R140): `PC <- target`. -/
def execJmpAbs (target : Word) (s : State) : Host.Outcome State Fault Refusal :=
  done 3 (s.setPc target)

/-- JSR absolute (R141): push `(PC - 1) mod 65536`, the address of the JSR's last byte, then
`PC <- target`. Both operand bytes are fetched before (D6). -/
def execJsrAbs (target : Word) (s : State) : Host.Outcome State Fault Refusal :=
  done 6 ((push16 (s.pc - 1) s).setPc target)

/-- RTS (R142): `PC <- (Pop16() + 1) mod 65536`. -/
def execRts (s : State) : Host.Outcome State Fault Refusal :=
  let r := pop16 s
  done 6 (r.2.setPc (r.1 + 1))

end Sys2Proof.Machine
end

