-- ==== Sys2Proof/Machine/FlagOps.lean ====
section
/-! DEFINITION. The flag instructions SEI and CLD (44_flags.md). -/

namespace Sys2Proof.Machine

/-- SEI (R150): `P.I <- 1`. -/
def execSei (s : State) : Host.Outcome State Fault Refusal := done 2 (s.setP s.p.setI)

/-- CLD (R151): `P.D <- 0`. -/
def execCld (s : State) : Host.Outcome State Fault Refusal := done 2 (s.setP s.p.clearD)

end Sys2Proof.Machine
end

