-- ==== Sys2Proof/Machine/Increment.lean ====
section
/-! DEFINITION. INX and DEX (42_increment.md). -/

namespace Sys2Proof.Machine

/-- INX (R130): `X <- (X + 1) mod 256; SetZN(X)`. -/
def execInx (s : State) : Host.Outcome State Fault Refusal := done 2 (loadX (s.x + 1) s)

/-- DEX (R131): `X <- (X - 1) mod 256; SetZN(X)`. -/
def execDex (s : State) : Host.Outcome State Fault Refusal := done 2 (loadX (s.x - 1) s)

end Sys2Proof.Machine
end

