-- ==== Sys2Proof/Machine/LoadStore.lean ====
section
/-! DEFINITION. The loads and stores LDA, STA, LDX (41_load_store.md). -/

namespace Sys2Proof.Machine

/-- LDA immediate (R110). -/
def execLdaImm (imm : Byte) (s : State) : Host.Outcome State Fault Refusal := done 2 (loadA imm s)

/-- LDA zero-page (R111). -/
def execLdaZp (zp : Byte) (s : State) : Host.Outcome State Fault Refusal :=
  done 3 (loadAFrom (zeroPageAddr zp) s)

/-- LDA absolute (R112). -/
def execLdaAbs (addr : Word) (s : State) : Host.Outcome State Fault Refusal :=
  done 4 (loadAFrom (absoluteAddr addr) s)

/-- STA zero-page (R113). -/
def execStaZp (zp : Byte) (s : State) : Host.Outcome State Fault Refusal :=
  done 3 (storeATo (zeroPageAddr zp) s)

/-- STA absolute (R114). -/
def execStaAbs (addr : Word) (s : State) : Host.Outcome State Fault Refusal :=
  done 4 (storeATo (absoluteAddr addr) s)

/-- LDX immediate (R115). -/
def execLdxImm (imm : Byte) (s : State) : Host.Outcome State Fault Refusal := done 2 (loadX imm s)

end Sys2Proof.Machine
end

