-- ==== Sys2Proof/Machine/System.lean ====
section
/-! DEFINITION. The system instructions BRK and NOP (40_system.md). A meaning runs with PC already
past the instruction's bytes. -/

namespace Sys2Proof.Machine

/-- BRK (R100): sets the Break flag and signals halt; it pushes nothing, reads no vector, leaves P.I
and skips no padding byte (D8). -/
def execBrk (s : State) : Host.Outcome State Fault Refusal := halt 7 (s.setP s.p.setB)

/-- NOP (R101): no effect. -/
def execNop (s : State) : Host.Outcome State Fault Refusal := done 2 s

end Sys2Proof.Machine
end

