-- ==== Sys2Proof/Machine/TransferStack.lean ====
section
/-! DEFINITION. TXS, TSX, PHA, PLA (45_transfer_stack.md). -/

namespace Sys2Proof.Machine

/-- TXS (R160): `SP <- X`; no flag is written (conflict C8). -/
def execTxs (s : State) : Host.Outcome State Fault Refusal := done 2 (s.setSp s.x)

/-- TSX (R161): `X <- SP; SetZN(X)`. -/
def execTsx (s : State) : Host.Outcome State Fault Refusal := done 2 (loadX s.sp s)

/-- PHA (R162): `Push8(A)`. -/
def execPha (s : State) : Host.Outcome State Fault Refusal := done 3 (push8 s.a s)

/-- PLA (R163): `A <- Pop8(); SetZN(A)`. -/
def execPla (s : State) : Host.Outcome State Fault Refusal :=
  let r := pop8 s
  done 4 (loadA r.1 r.2)

end Sys2Proof.Machine
end

