-- ==== Sys2Proof/Machine/Dispatch.lean ====
section
/-! DEFINITION. The dispatch of 60_exceptions.md R200: one arm per instruction. -/

namespace Sys2Proof.Machine

-- The instruction's bytes have been fetched: PC is past them when the meaning runs (R24, R66).
def exec (i : Instr) (s : State) : Host.Outcome State Fault Refusal :=
  match i with
  | .brk => Sys2Proof.Machine.execBrk s
  | .nop => Sys2Proof.Machine.execNop s
  | .ldaImm imm => Sys2Proof.Machine.execLdaImm imm s
  | .ldaZp zp => Sys2Proof.Machine.execLdaZp zp s
  | .ldaAbs addr => Sys2Proof.Machine.execLdaAbs addr s
  | .staZp zp => Sys2Proof.Machine.execStaZp zp s
  | .staAbs addr => Sys2Proof.Machine.execStaAbs addr s
  | .ldxImm imm => Sys2Proof.Machine.execLdxImm imm s
  | .inx => Sys2Proof.Machine.execInx s
  | .dex => Sys2Proof.Machine.execDex s
  | .jmpAbs target => Sys2Proof.Machine.execJmpAbs target s
  | .jsrAbs target => Sys2Proof.Machine.execJsrAbs target s
  | .rts => Sys2Proof.Machine.execRts s
  | .sei => Sys2Proof.Machine.execSei s
  | .cld => Sys2Proof.Machine.execCld s
  | .txs => Sys2Proof.Machine.execTxs s
  | .tsx => Sys2Proof.Machine.execTsx s
  | .pha => Sys2Proof.Machine.execPha s
  | .pla => Sys2Proof.Machine.execPla s
  | .adcImm imm => Sys2Proof.Machine.execAdcImm imm s

end Sys2Proof.Machine
end

