-- ==== Sys2Proof/Machine/Fetch.lean ====
section
/-! DEFINITION. Fetching an instruction (60_exceptions.md R200), when a step is accepted, and how an
instruction's bytes are placed where the next step fetches. -/

namespace Sys2Proof.Machine

/-- A step is accepted only of a core that has been reset and has not faulted since (R203, R243). -/
def stepRefusal (ph : Phase) : Option Refusal :=
  match ph with
  | .notReset => some .stepBeforeReset
  | .running => none
  | .faulted => some .stepAfterFault

/-- What fetching at PC gives, with the state after the fetch. -/
inductive Fetched where
  /-- An instruction; PC is past its bytes. -/
  | instr (i : Instr) (s : State)
  /-- An opcode byte with no decode entry; PC is past that byte and no operand was fetched (R88). -/
  | unsupported (op : Byte) (s : State)
  deriving DecidableEq, Repr

/-- Fetch the opcode byte, then as many operand bytes as its format has, then decode (R80, R200). -/
def fetchInstruction (s : State) : Fetched :=
  let op := fetch8 s
  match lookupOpcode op.1 with
  | none => .unsupported op.1 op.2
  | some row =>
    let operands := fetchBytes row.format.operandBytes op.2
    match decode (op.1 :: operands.1) with
    | .ok i _ => .instr i operands.2
    | .unsupportedOpcode b => .unsupported b op.2
    | .truncated => .unsupported op.1 op.2

/-- Put a byte behind an address from outside the machine, as the environment builds memory before a
run (R58, R245): into RAM or into the PRG buffer. Nothing stands behind the empty window. -/
def State.place (s : State) (addr : Word) (v : Byte) : State :=
  if addr.toNat < 0x2000 then { s with ram := s.ram.write (ramCell addr) v }
  else if addr.toNat < 0x8000 then s
  else { s with prg := s.prg.write (romIndex s.prgSize addr) v }

/-- Put bytes behind ascending addresses, wrapping modulo 65536. -/
def State.placeBytes (s : State) (addr : Word) : List Byte → State
  | [] => s
  | b :: bs => (s.place addr b).placeBytes (addr + 1) bs

/-- The empty window 0x2000 to 0x7FFF, where no byte can be put (R56). -/
def inEmptyWindow (addr : Word) : Bool := decide (0x2000 ≤ addr.toNat) && decide (addr.toNat < 0x8000)

/-- Where a program's first instruction can be put for the next fetch: at PC, unless one of the three
addresses from PC on lies in the empty window; then PC is moved to 0x0000, which is RAM. -/
def State.fetchHome (s : State) : Word :=
  if inEmptyWindow s.pc || inEmptyWindow (s.pc + 1) || inEmptyWindow (s.pc + 2) then 0x0000 else s.pc

/-- The machine with an instruction's bytes where the next step fetches, and the run marked running,
so that the next step is accepted (log entry 6). -/
def State.placeForFetch (s : State) (bytes : List Byte) : State :=
  ({ s with pc := s.fetchHome, phase := .running }).placeBytes s.fetchHome bytes

end Sys2Proof.Machine
end

