-- ==== Sys2Proof/Machine/Step.lean ====
section
/-! DEFINITION. One step executes exactly one instruction (60_exceptions.md R200). -/

namespace Sys2Proof.Machine

/-- `Step()` (R200): fetch at PC and execute, or raise UnsupportedOpcode (R201). -/
def step (s : State) : Host.Outcome State Fault Refusal :=
  match stepRefusal s.phase with
  | some r => .refused r
  | none =>
    match fetchInstruction s.begin with
    | .instr i t => exec i t
    | .unsupported op t => raiseUnsupportedOpcode op t

/-- `s` with the instruction whose table word is `w` placed where the next step fetches. -/
def State.withFetchWord (s : State) (nbits w : Nat) : State := s.placeForFetch (tableWordBytes nbits w)

end Sys2Proof.Machine
end

