-- ==== Sys2Proof/Machine/Boot.lean ====
section
/-! DEFINITION. How a machine comes to run a program (70_reset_and_hazards.md R241 to R247): the
cartridge loader in summary, the construction of the core bound to a bus, the first reset, and the
two events the environment applies (00_scope.md R4). The loader and the construction belong to the
environment (R2 (a)); the core's part is `applyReset` and `step`. -/

namespace Sys2Proof.Machine

/-- The four bytes that begin a cartridge image (R247). -/
def imageMagic : List Byte := [0x4E, 0x45, 0x53, 0x1A]

/-- `load(bytes)`: the PRG and the CHR buffer of a cartridge image, or none, which is `InvalidImage`
(R247): 16 header bytes, bank counts in bytes 4 and 5, bit 2 of byte 6 a 512-byte trainer to skip. An
image too short for all that its header announces, the trainer with it, is invalid. -/
def loadImage (image : List Byte) : Option (List Byte × List Byte) :=
  if image.length < 16 ∨ image.take 4 ≠ imageMagic then none
  else
    let prgLength := (image.getD 4 0).toNat * 16384
    let chrLength := (image.getD 5 0).toNat * 8192
    let trainer := if (image.getD 6 0).getLsbD 2 then 512 else 0
    if image.length < 16 + trainer + prgLength + chrLength then none
    else
      let body := image.drop (16 + trainer)
      some (body.take prgLength, (body.drop prgLength).take chrLength)

/-- The core "constructed bound to a Memory/Bus instance" (R58, R242): RAM zero, the PRG buffer as
given, A, X, Y holding INIT_A, INIT_X, INIT_Y. A PRG buffer of another size than 16384 or 32768 is
refused (R55, D10). SP, PC and the stored flags are not defined before the first reset (R243); they
stand at zero and nothing reads them, since `step` refuses this phase (log entry 7). -/
def construct (prg : List Byte) (initA initX initY : Byte) : Host.Outcome State Fault Refusal :=
  match Config.PrgSize.ofLength? prg.length with
  | none => .refused (.prgSizeUnsupported prg.length)
  | some size => .next
      { a := initA, x := initX, y := initY, sp := 0, pc := 0, p := Status.ofByte 0,
        ram := [], prg := Memory.ofBytesFrom 0 prg, prgSize := size,
        phase := .notReset, report := none, bus := [] }

/-- Power-on (R242, R245): construct, then reset. -/
def boot (prg : List Byte) (initA initX initY : Byte) : Host.Outcome State Fault Refusal :=
  match construct prg initA initX initY with
  | .next s => .next (applyReset s)
  | .fault f => .fault f
  | .refused r => .refused r

/-- The two events the environment applies to the core (R4). -/
inductive Event where
  | reset
  | step
  deriving DecidableEq, Repr

/-- What the machine answers to an event: a reset is accepted whenever no instruction is in progress,
which is between any two events (R4, R241). -/
def respond (e : Event) (s : State) : Host.Outcome State Fault Refusal :=
  match e with
  | .reset => .next (applyReset s)
  | .step => step s

end Sys2Proof.Machine
end

