-- ==== Sys2Proof/Machine/Run.lean ====
section
/-! DEFINITION. The reference run loop and the end of a run (60_exceptions.md R215 to R217). It is the
environment's, outside the core (R2 (b)), and is given because it is the only definition of how a run
ends. -/

namespace Sys2Proof.Machine

/-- How a run of the loop ends (R217). -/
inductive RunEnd where
  /-- `Halted(count)`: a BRK was executed; the only normal end. -/
  | halted (count : Nat) (s : State)
  /-- `Stopped(count)`: the budget ran out. -/
  | stopped (count : Nat) (s : State)
  /-- Abort with `UnsupportedOpcode(op)`: no count is reported. -/
  | aborted (op : Byte) (s : State)
  /-- A step was refused: the run did not start with a reset, or was already faulted (R203, R243). -/
  | refused (r : Refusal)
  /-- The model's fuel ran out before the run ended; not an end of a run (R216). -/
  | unfinished (count : Nat) (s : State)
  deriving DecidableEq, Repr

/-- `max_steps is present and count >= max_steps` (R215, D11). -/
def budgetSpent (maxSteps : Option Nat) (count : Nat) : Bool :=
  match maxSteps with
  | none => false
  | some n => decide (n ≤ count)

/-- The loop of `Run(max_steps)` from `count` steps on (R215): test the budget, peek the next opcode
without consuming it, execute a BRK once and return, else step and count. `fuel` bounds the model's
recursion, since a run without a budget may never end (R216). -/
def runLoop (maxSteps : Option Nat) : Nat → Nat → State → RunEnd
  | 0, count, s => if budgetSpent maxSteps count then .stopped count s else .unfinished count s
  | fuel + 1, count, s =>
    if budgetSpent maxSteps count then .stopped count s
    else if s.peek s.pc = 0x00 then
      match step s with
      | .next t => .halted (count + 1) t
      | .fault (.unsupportedOpcode op left) => .aborted op left
      | .refused r => .refused r
    else
      match step s with
      | .next t => runLoop maxSteps fuel (count + 1) t
      | .fault (.unsupportedOpcode op left) => .aborted op left
      | .refused r => .refused r

end Sys2Proof.Machine
end

