-- ==== Sys2Proof/Safety.lean ====
section
/-! DEFINITION. The terms the statements use: bytes standing at an address, what an instruction that
completes leaves, the opcode set written out a second time from 30_encoding.md R87, and the
invariants. -/

namespace Sys2Proof.Machine

/-- The bytes stand at ascending addresses from `addr` on, wrapping modulo 65536 (R26, R80). -/
def State.BytesAt (s : State) (addr : Word) : List Byte → Prop
  | [] => True
  | b :: bs => s.peek addr = b ∧ s.BytesAt (addr + 1) bs

/-- The transactions of fetching `n` bytes at ascending addresses from `addr` on (R8, R66). -/
def State.fetchReads (s : State) : Word → Nat → List BusTxn
  | _, 0 => []
  | addr, n + 1 => .read addr (s.peek addr) :: s.fetchReads (addr + 1) n

/-- A step of this machine is accepted (R203, R243). -/
abbrev State.Running (s : State) : Prop := s.phase = .running

/-- Two addresses below 0x2000 designate one RAM cell (R54). -/
abbrev SameRamCell (addr a : Word) : Prop :=
  addr.toNat < 0x2000 ∧ a.toNat < 0x2000 ∧ a.toNat % 0x800 = addr.toNat % 0x800

/-- Reads of `s` after the byte `v` is stored at `addr` (R52, R54): the stored cell at each of its
addresses, and every other byte as before; a store at 0x2000 or above changes no byte. -/
def afterStore (read : Word → Byte) (addr : Word) (v : Byte) : Word → Byte :=
  fun a => if SameRamCell addr a then v else read a

/-- The 16-bit operand of two bytes, `hi * 256 + lo` (R9, R84), as a number. -/
def absWord (lo hi : Byte) : Word := BitVec.ofNat 16 (hi.toNat * 256 + lo.toNat)

/-- P with Z and N describing the byte `v` and every other flag kept (R10), in numbers. -/
def describing (v : Byte) (p : Status) : Status :=
  { p with z := decide (v.toNat = 0), n := decide (128 ≤ v.toNat) }

/-- The bus transactions an instruction makes after its own bytes are fetched, from the state `s` it
starts in (R66): reads show the byte read, writes the byte written. -/
def dataTransactions (s : State) : Instr → List BusTxn
  | .brk => []
  | .nop => []
  | .ldaImm _ => []
  | .ldaZp zp => [.read (BitVec.ofNat 16 zp.toNat) (s.peek (BitVec.ofNat 16 zp.toNat))]
  | .ldaAbs addr => [.read addr (s.peek addr)]
  | .staZp zp => [.write (BitVec.ofNat 16 zp.toNat) s.a]
  | .staAbs addr => [.write addr s.a]
  | .ldxImm _ => []
  | .inx => []
  | .dex => []
  | .jmpAbs _ => []
  | .jsrAbs _ =>
    [.write (stackAddr s.sp) (BitVec.ofNat 8 ((s.pc + 2).toNat / 256)),
      .write (stackAddr (s.sp - 1)) (BitVec.ofNat 8 (s.pc + 2).toNat)]
  | .rts =>
    [.read (stackAddr (s.sp + 1)) (s.peek (stackAddr (s.sp + 1))),
      .read (stackAddr (s.sp + 2)) (s.peek (stackAddr (s.sp + 2)))]
  | .sei => []
  | .cld => []
  | .txs => []
  | .tsx => []
  | .pha => [.write (stackAddr s.sp) s.a]
  | .pla => [.read (stackAddr (s.sp + 1)) (s.peek (stackAddr (s.sp + 1)))]
  | .adcImm _ => []

/-- The state of `s` in which PC is past `n` bytes, modulo 65536 (R24, R25). -/
def State.past (s : State) (n : Nat) : State := { s with pc := s.pc + BitVec.ofNat 16 n }

/-- The instruction `i`, whose bytes are `bytes`, completes from every state, and what it leaves:
`regs` gives all six registers and `reads` every byte of memory, both from the state in which PC is
already past the instruction's bytes. The first clause says it of the meaning alone, the second of a
step that finds the bytes at PC. The phase of the run and the size of the ROM are kept, and the answer
is `rep`. -/
def Completes (i : Instr) (bytes : List Byte) (regs : State → Registers)
    (reads : State → Word → Byte) (rep : Report) : Prop :=
  (∀ s : State, ∃ t : State, exec i s = .next t ∧ t.toRegisters = regs s ∧
    (∀ a, t.peek a = reads s a) ∧ t.report = some rep ∧ t.phase = s.phase ∧
    t.prgSize = s.prgSize) ∧
  (∀ s : State, s.Running → s.BytesAt s.pc bytes →
    ∃ t : State, step s = .next t ∧ t.toRegisters = regs (s.past bytes.length) ∧
      (∀ a, t.peek a = reads (s.past bytes.length) a) ∧ t.report = some rep ∧
      t.phase = s.phase ∧ t.prgSize = s.prgSize)

/-- The supported opcode values in ascending order (R87). -/
def supportedOpcodes : List Byte :=
  [0x00, 0x20, 0x48, 0x4C, 0x60, 0x68, 0x69, 0x78, 0x85, 0x8D, 0x9A, 0xA2, 0xA5, 0xA9, 0xAD, 0xBA,
    0xCA, 0xD8, 0xE8, 0xEA]

/-- The memories are canonical and hold nothing outside RAM's 0x800 cells and the PRG buffer. -/
structure MemoryCanonical (s : State) : Prop where
  ramForm : s.ram.wf
  ramBound : s.ram.below 0x800
  prgForm : s.prg.wf
  prgBound : s.prg.below s.prgSize.bytes

/-- The form of P that a program can reach from reset (R39): I set, D clear, V clear, never both Z
and N. -/
structure StatusReachable (p : Status) : Prop where
  interruptDisable : p.i = true
  decimal : p.d = false
  overflow : p.v = false
  notZeroAndNegative : ¬(p.z = true ∧ p.n = true)

end Sys2Proof.Machine
end

