-- ==== Sys2Proof/Certificates/Slice0/Obligations.lean ====
section
/-! DEFINITION. The statements for the provers. The terms they share (`Completes`, `BytesAt`,
`afterStore`, `dataTransactions`, `supportedOpcodes`, the invariants) are defined in
Sys2Proof/Safety.lean. In a register clause `s` is the state in which PC is already past the
instruction's bytes. -/

open Sys2Proof Sys2Proof.Machine

/-! ## Encoding -/

/-- Every instruction is well formed (R90), and decoding its encoding, whatever follows it, gives it
back with every operand (R80 to R87; low operand byte first is the spec's decision D5). -/
def Obligations.EncodeThenDecodeReturnsInstruction : Prop :=
  ∀ (i : Instr) (rest : List Byte), decode (encode i ++ rest) = .ok i rest

/-- Where the decoder reads an instruction, the bytes it read are that instruction's encoding: no
bit of an instruction is dropped and no two encodings are one instruction (R80 to R87). -/
def Obligations.DecodedBytesAreTheEncoding : Prop :=
  ∀ (bytes : List Byte) (i : Instr) (rest : List Byte),
    decode bytes = .ok i rest → bytes = encode i ++ rest

/-- The decoder rejects exactly the 236 values outside the opcode map, by the opcode byte alone (R86,
R88, R89), and no operand byte is ever illegal (R90). -/
def Obligations.DecoderRejectsExactlyTheOtherOpcodes : Prop :=
  (∀ (op : Byte) (rest : List Byte),
    decode (op :: rest) = .unsupportedOpcode op ↔ op ∉ supportedOpcodes) ∧
  (∀ (op b1 b2 : Byte) (rest : List Byte), op ∈ supportedOpcodes →
    ∃ i r, decode (op :: b1 :: b2 :: rest) = .ok i r) ∧
  ((List.range 256).filter fun n => decide (BitVec.ofNat 8 n ∉ supportedOpcodes)).length = 236

/-- Words written out from the opcode map and the source's examples (R87, R91, S7) decode to the
instructions they stand for, one for each family; a table word lays its first byte lowest. -/
def Obligations.WordsOfTheOpcodeMapDecode : Prop :=
  decode [0xA9, 0x05] = .ok (.ldaImm 0x05) [] ∧
  decode [0x8D, 0x00, 0x20] = .ok (.staAbs 0x2000) [] ∧
  decode [0x85, 0x10, 0xEA] = .ok (.staZp 0x10) [0xEA] ∧
  decode [0xE8] = .ok .inx [] ∧
  decode [0x20, 0x0C, 0x80] = .ok (.jsrAbs 0x800C) [] ∧
  decode [0x78] = .ok .sei [] ∧
  decode [0x9A] = .ok .txs [] ∧
  decode [0x69, 0xFB] = .ok (.adcImm 0xFB) [] ∧
  decode [0x00] = .ok .brk [] ∧
  decode [0x6D, 0x00, 0x20] = .unsupportedOpcode 0x6D ∧
  decodeTableWord 24 0x20008D = some (.staAbs 0x2000)

/-! ## The step -/

/-- A step of a running machine executes the instruction that the bytes at PC decode to, in the state
in which PC is past its bytes, nothing is reported yet and the fetch's reads are the only bus
transactions so far (R200, R24, R66). -/
def Obligations.StepRunsTheDecodedInstruction : Prop :=
  ∀ (s : State) (i : Instr) (rest : List Byte), s.Running →
    decode [s.peek s.pc, s.peek (s.pc + 1), s.peek (s.pc + 2)] = .ok i rest →
    step s = exec i { s with
      pc := s.pc + BitVec.ofNat 16 (encode i).length
      report := none
      bus := s.fetchReads s.pc (encode i).length }

/-- The model's own convention (log entry 6): a word placed by `withFetchWord` is what the very next
step runs, from any state and in any phase; the registers but PC, and the ROM size, are kept, and PC
is kept unless one of the three addresses from it on lies in the empty window. -/
def Obligations.PlacedWordIsTheNextInstruction : Prop :=
  ∀ (s : State) (nbits w : Nat) (i : Instr), decodeTableWord nbits w = some i →
    ∃ f : State, f = s.withFetchWord nbits w ∧
      f.toRegisters = { s.toRegisters with pc := s.fetchHome } ∧ f.prgSize = s.prgSize ∧
      step f = exec i { f with
        pc := f.pc + BitVec.ofNat 16 (encode i).length
        report := none
        bus := f.fetchReads f.pc (encode i).length }

/-- From every state of a running machine a step produces a next state, which runs, exactly if the
opcode byte is one of the 20, and else the one fault (R200, R202, R206); it is never refused. -/
def Obligations.StepCompletesExactlyOnSupportedOpcodes : Prop :=
  ∀ s : State, s.Running →
    (s.peek s.pc ∈ supportedOpcodes → ∃ t, step s = .next t ∧ t.Running) ∧
    (s.peek s.pc ∉ supportedOpcodes →
      ∃ left, step s = .fault (.unsupportedOpcode (s.peek s.pc) left))

/-- UnsupportedOpcode (R201): the fault carries the opcode byte; in the state left behind PC is one
past the offending byte, A, X, Y, SP, P and memory are as before the step, the only bus transaction is
the opcode read, and no cycle cost is reported. -/
def Obligations.UnsupportedOpcodeLeavesOnlyPcAdvanced : Prop :=
  ∀ s : State, s.Running → s.peek s.pc ∉ supportedOpcodes →
    ∃ left, step s = .fault (.unsupportedOpcode (s.peek s.pc) left) ∧
      left.toRegisters = { s.toRegisters with pc := s.pc + 1 } ∧
      (∀ a, left.peek a = s.peek a) ∧ left.prgSize = s.prgSize ∧
      left.bus = [.read s.pc (s.peek s.pc)] ∧ left.report = none

/-- After a fault, and before the first reset, a step has no meaning and is refused by name; a reset
is accepted, after which the machine runs (R203 with D7, R243 with D15: the spec's own decisions). -/
def Obligations.StepIsRefusedUntilReset : Prop :=
  (∀ (s left : State) (op : Byte), step s = .fault (.unsupportedOpcode op left) →
    step left = .refused .stepAfterFault ∧ (applyReset left).Running) ∧
  (∀ s : State, s.phase = .notReset →
    step s = .refused .stepBeforeReset ∧ (applyReset s).Running)

/-! ## System: BRK and NOP -/

/-- BRK (R100; PC one past the BRK is the spec's decision D8): sets Break, answers Halt(7), and changes
nothing else; from the bytes `00` PC ends one further. -/
def Obligations.BrkSetsBreakAndHalts : Prop :=
  Completes .brk [0x00] (fun s => { s.toRegisters with p := { s.p with b := true } })
    (fun s => s.peek) (.halt 7)

/-- NOP (R101): byte `EA`, no effect but the fetch, which is its only bus transaction, Done(2). -/
def Obligations.NopHasNoEffect : Prop :=
  Completes .nop [0xEA] (fun s => s.toRegisters) (fun s => s.peek) (.done 2) ∧
  ∀ s : State, s.Running → s.BytesAt s.pc [0xEA] →
    ∃ t, step s = .next t ∧ t.bus = [.read s.pc 0xEA]

/-! ## Loads and stores -/

/-- LDA immediate (R110): bytes `A9 imm8`, A takes the constant, Z and N describe it, the other flags,
registers and all memory are unchanged, Done(2), PC ends two further. -/
def Obligations.LdaImmediateLoadsTheConstant : Prop :=
  ∀ imm : Byte, Completes (.ldaImm imm) [0xA9, imm]
    (fun s => { s.toRegisters with a := imm, p := describing imm s.p }) (fun s => s.peek) (.done 2)

/-- LDA zero-page (R111): bytes `A5 zp8`, A takes the byte at 0x0000 + zp8 (the page is the spec's
decision D21), Z and N describe it, Done(3). -/
def Obligations.LdaZeroPageLoadsFromPageZero : Prop :=
  ∀ zp : Byte, Completes (.ldaZp zp) [0xA5, zp]
    (fun s =>
      let v := s.peek (BitVec.ofNat 16 zp.toNat)
      { s.toRegisters with a := v, p := describing v s.p })
    (fun s => s.peek) (.done 3)

/-- LDA absolute (R112; low byte first is the spec's decision D5): bytes `AD lo hi`, A takes the
byte at the address, whatever answers there, Z and N describe it, Done(4). -/
def Obligations.LdaAbsoluteLoadsFromTheAddress : Prop :=
  ∀ lo hi : Byte, Completes (.ldaAbs (absWord lo hi)) [0xAD, lo, hi]
    (fun s =>
      let v := s.peek (absWord lo hi)
      { s.toRegisters with a := v, p := describing v s.p })
    (fun s => s.peek) (.done 4)

/-- STA zero-page (R113; the page is the spec's decision D21): bytes `85 zp8`, A is stored in page
zero, where it is seen at every mirror; no register and no flag changes, Done(3). -/
def Obligations.StaZeroPageStoresInPageZero : Prop :=
  ∀ zp : Byte, Completes (.staZp zp) [0x85, zp] (fun s => s.toRegisters)
    (fun s => afterStore s.peek (zeroPageAddr zp) s.a) (.done 3)

/-- STA absolute (R114; low byte first is the spec's decision D5): bytes `8D lo hi`, A is stored at
the address; below 0x2000 the RAM cell changes, at 0x2000 or above no byte does; no register and no
flag changes, Done(4) in both cases. -/
def Obligations.StaAbsoluteStoresAtTheAddress : Prop :=
  ∀ lo hi : Byte, Completes (.staAbs (absWord lo hi)) [0x8D, lo, hi] (fun s => s.toRegisters)
    (fun s => afterStore s.peek (absoluteAddr (absWord lo hi)) s.a) (.done 4)

/-- LDX immediate (R115): bytes `A2 imm8`, X takes the constant, Z and N describe it, Done(2). -/
def Obligations.LdxImmediateLoadsTheConstant : Prop :=
  ∀ imm : Byte, Completes (.ldxImm imm) [0xA2, imm]
    (fun s => { s.toRegisters with x := imm, p := describing imm s.p }) (fun s => s.peek) (.done 2)

/-! ## Increment and decrement -/

/-- INX (R130): byte `E8`, X becomes (X + 1) mod 256, Z and N describe it, C and V are not written,
Done(2). -/
def Obligations.InxIncrementsX : Prop :=
  Completes .inx [0xE8]
    (fun s =>
      let v : Byte := BitVec.ofNat 8 ((s.x.toNat + 1) % 256)
      { s.toRegisters with x := v, p := describing v s.p })
    (fun s => s.peek) (.done 2)

/-- DEX (R131): byte `CA`, X becomes (X + 255) mod 256, Z and N describe it, C and V are not written,
Done(2); INX followed by DEX restores X and leaves Z and N describing it. -/
def Obligations.DexDecrementsX : Prop :=
  Completes .dex [0xCA]
    (fun s =>
      let v : Byte := BitVec.ofNat 8 ((s.x.toNat + 255) % 256)
      { s.toRegisters with x := v, p := describing v s.p })
    (fun s => s.peek) (.done 2) ∧
  ∀ s : State, ∃ t u, exec .inx s = .next t ∧ exec .dex t = .next u ∧
    u.toRegisters = { s.toRegisters with p := describing s.x s.p }

/-! ## Control transfer -/

/-- JMP absolute (R140; low byte first is the spec's decision D5): bytes `4C lo hi`, PC takes the
fetched word, nothing else changes, Done(3). -/
def Obligations.JmpLoadsPc : Prop :=
  ∀ lo hi : Byte, Completes (.jmpAbs (absWord lo hi)) [0x4C, lo, hi]
    (fun s => { s.toRegisters with pc := absWord lo hi }) (fun s => s.peek) (.done 3)

/-- JSR absolute (R141; that both operand bytes are fetched before the return address is taken is the
spec's decision D6 and D17): bytes `20 lo hi`, the word (PC - 1) mod 65536 is pushed, high byte at
0x0100 + SP and then low byte one lower in the stack page, SP decreases by 2 modulo 256, PC takes the
target, Done(6). -/
def Obligations.JsrPushesTheReturnAddress : Prop :=
  ∀ lo hi : Byte, Completes (.jsrAbs (absWord lo hi)) [0x20, lo, hi]
    (fun s => { s.toRegisters with sp := s.sp - 2, pc := absWord lo hi })
    (fun s =>
      let ret := (s.pc.toNat + 65535) % 65536
      afterStore (afterStore s.peek (stackAddr s.sp) (BitVec.ofNat 8 (ret / 256)))
        (stackAddr (s.sp - 1)) (BitVec.ofNat 8 (ret % 256)))
    (.done 6)

/-- RTS (R142): byte `60`, PC becomes the popped word plus 1 modulo 65536, the low byte read at
SP + 1 and the high byte at SP + 2 in the stack page, SP increases by 2 modulo 256, no flag and no
byte of memory changes, Done(6). -/
def Obligations.RtsReturnsPastThePoppedWord : Prop :=
  Completes .rts [0x60]
    (fun s => { s.toRegisters with
      sp := s.sp + 2
      pc := absWord (s.peek (stackAddr (s.sp + 1))) (s.peek (stackAddr (s.sp + 2))) + 1 })
    (fun s => s.peek) (.done 6)

/-- The JSR and RTS round trip (R144): if JSR at `a` transfers to its target and the code there leaves
SP and the two stacked bytes as the JSR left them, the RTS that follows leaves PC = a + 3 and SP as it
was before the JSR. -/
def Obligations.JsrThenRtsReturnsBehindTheJsr : Prop :=
  ∀ (s : State) (lo hi : Byte), s.Running → s.BytesAt s.pc [0x20, lo, hi] →
    ∃ t, step s = .next t ∧ t.pc = absWord lo hi ∧
      ∀ u : State, u.Running → u.sp = t.sp →
        u.peek (stackAddr (t.sp + 1)) = t.peek (stackAddr (t.sp + 1)) →
        u.peek (stackAddr (t.sp + 2)) = t.peek (stackAddr (t.sp + 2)) →
        u.BytesAt u.pc [0x60] →
        ∃ v, step u = .next v ∧ v.pc = s.pc + 3 ∧ v.sp = s.sp

/-! ## Flags -/

/-- SEI (R150): byte `78`, I is set, the other flags are unchanged, Done(2). -/
def Obligations.SeiSetsInterruptDisable : Prop :=
  Completes .sei [0x78] (fun s => { s.toRegisters with p := { s.p with i := true } })
    (fun s => s.peek) (.done 2)

/-- CLD (R151): byte `D8`, D is cleared, the other flags are unchanged, Done(2). -/
def Obligations.CldClearsDecimal : Prop :=
  Completes .cld [0xD8] (fun s => { s.toRegisters with p := { s.p with d := false } })
    (fun s => s.peek) (.done 2)

/-! ## Transfers and stack -/

/-- TXS (R160): byte `9A`, SP takes X, no flag is written, Done(2). -/
def Obligations.TxsCopiesXWithoutFlags : Prop :=
  Completes .txs [0x9A] (fun s => { s.toRegisters with sp := s.x }) (fun s => s.peek) (.done 2)

/-- TSX (R161): byte `BA`, X takes SP, Z and N describe it, SP is unchanged, Done(2). -/
def Obligations.TsxCopiesSp : Prop :=
  Completes .tsx [0xBA] (fun s => { s.toRegisters with x := s.sp, p := describing s.sp s.p })
    (fun s => s.peek) (.done 2)

/-- PHA (R162): byte `48`, A is stored at 0x0100 + SP, SP decreases by 1 modulo 256, no flag is
written, Done(3). -/
def Obligations.PhaPushesA : Prop :=
  Completes .pha [0x48] (fun s => { s.toRegisters with sp := s.sp - 1 })
    (fun s => afterStore s.peek (stackAddr s.sp) s.a) (.done 3)

/-- PLA (R163): byte `68`, SP increases by 1 modulo 256 and A takes the byte then at 0x0100 + SP, Z and
N describe it, the byte is left in place, Done(4); PHA followed by PLA restores SP, leaves A and sets
Z and N from A. -/
def Obligations.PlaPullsA : Prop :=
  Completes .pla [0x68]
    (fun s =>
      let v := s.peek (stackAddr (s.sp + 1))
      { s.toRegisters with sp := s.sp + 1, a := v, p := describing v s.p })
    (fun s => s.peek) (.done 4) ∧
  ∀ s : State, ∃ t u, exec .pha s = .next t ∧ exec .pla t = .next u ∧
    u.toRegisters = { s.toRegisters with p := describing s.a s.p }

/-- Pop16 (R14): the low byte is read first, SP + 1, then the high byte, SP + 2, and a pop after the
push of a word returns the word and restores SP, for every word and every SP. -/
def Obligations.PopAfterPushReturnsTheWord : Prop :=
  (∀ s : State,
    (pop16 s).1 = absWord (s.peek (stackAddr (s.sp + 1))) (s.peek (stackAddr (s.sp + 2))) ∧
    (pop16 s).2.toRegisters = { s.toRegisters with sp := s.sp + 2 } ∧
    (∀ a, (pop16 s).2.peek a = s.peek a) ∧
    (pop16 s).2.bus = s.bus ++
      [.read (stackAddr (s.sp + 1)) (s.peek (stackAddr (s.sp + 1))),
        .read (stackAddr (s.sp + 2)) (s.peek (stackAddr (s.sp + 2)))]) ∧
  (∀ (w : Word) (s : State),
    (pop16 (push16 w s)).1 = w ∧ (pop16 (push16 w s)).2.sp = s.sp)

/-! ## Arithmetic -/

/-- ADC immediate (R170; that C is also cleared is the spec's decision D18 and that V is not written
its decision D4, log entry 3): bytes `69 imm8`, the wide sum A + imm8 + C gives A its low eight bits, C
whether it exceeds 255, Z and N describe A, every other flag is unchanged, Done(2). -/
def Obligations.AdcAddsWithCarry : Prop :=
  ∀ imm : Byte, Completes (.adcImm imm) [0x69, imm]
    (fun s =>
      let sum := s.a.toNat + imm.toNat + (if s.p.c then 1 else 0)
      let v : Byte := BitVec.ofNat 8 (sum % 256)
      { s.toRegisters with a := v, p := describing v { s.p with c := decide (255 < sum) } })
    (fun s => s.peek) (.done 2)

/-- The law of add with carry (R173): the old A, the operand and the old carry are the new A and 256
times the new carry. -/
def Obligations.AdcLosesNothing : Prop :=
  ∀ (imm : Byte) (s : State), ∃ t, exec (.adcImm imm) s = .next t ∧
    t.a.toNat + 256 * t.p.c.toNat = s.a.toNat + imm.toNat + s.p.c.toNat

/-- The Decimal flag does not change ADC (R171): from two states that differ in D alone the results
differ in D alone, registers and memory. -/
def Obligations.DecimalFlagDoesNotChangeAdc : Prop :=
  ∀ (imm : Byte) (s : State), ∃ t u,
    exec (.adcImm imm) { s with p := { s.p with d := false } } = .next t ∧
    exec (.adcImm imm) { s with p := { s.p with d := true } } = .next u ∧
    t.p.d = false ∧ u.toRegisters = { t.toRegisters with p := { t.p with d := true } } ∧
    ∀ a, u.peek a = t.peek a

/-- The parameter ADC_V_MODE (R172 with D4; log entry 3 for the value `unchanged`; the formula is
general knowledge G3): this hardware's ADC is the one that does not write V; the other reading differs
in V alone, and there V is set exactly if the signed sum leaves -128 to 127. -/
def Obligations.AdcModesDifferInOverflowAlone : Prop :=
  ∀ (imm : Byte) (s : State),
    (∃ t, exec (.adcImm imm) s = .next t ∧
      t.toRegisters = (adcWith .unchanged imm s).toRegisters) ∧
    (adcWith .unchanged imm s).p.v = s.p.v ∧
    (adcWith .signedOverflow imm s) =
      (adcWith .unchanged imm s).setP { (adcWith .unchanged imm s).p with
        v := decide (s.a.toInt + imm.toInt + s.p.c.toNat < -128 ∨
          127 < s.a.toInt + imm.toInt + s.p.c.toNat) }

/-! ## Rules about the whole machine -/

/-- Halt is the answer of a step that executed BRK and of no other step, and after it the core accepts
a step (R205). -/
def Obligations.HaltIsReportedExactlyByBrk : Prop :=
  ∀ s t : State, step s = .next t →
    ((∃ c, t.report = some (.halt c)) ↔ s.peek s.pc = 0x00) ∧
    (s.peek s.pc = 0x00 → t.report = some (.halt 7)) ∧ t.Running

/-- The writers of A, X, Y and SP (R21, R22, R23, R27): a step whose opcode is not listed for a register
leaves it, and no step writes Y. -/
def Obligations.RegistersHaveOnlyTheirWriters : Prop :=
  ∀ s t : State, step s = .next t →
    (s.peek s.pc ∉ ([0xA9, 0xA5, 0xAD, 0x68, 0x69] : List Byte) → t.a = s.a) ∧
    (s.peek s.pc ∉ ([0xA2, 0xE8, 0xCA, 0xBA] : List Byte) → t.x = s.x) ∧
    t.y = s.y ∧
    (s.peek s.pc ∉ ([0x9A, 0x48, 0x68, 0x20, 0x60] : List Byte) → t.sp = s.sp)

/-- The writers of the flags (R30 to R37): C by ADC alone, Z and N by the nine opcodes of the seven
instructions that use SetZN, I only ever set and only by SEI, D only ever cleared and only by CLD, B
only ever set and only by BRK, V by no step (log entry 3). -/
def Obligations.FlagsHaveOnlyTheirWriters : Prop :=
  ∀ s t : State, step s = .next t →
    (s.peek s.pc ≠ 0x69 → t.p.c = s.p.c) ∧
    (s.peek s.pc ∉
        ([0xA9, 0xA5, 0xAD, 0xA2, 0xE8, 0xCA, 0xBA, 0x68, 0x69] : List Byte) →
      t.p.z = s.p.z ∧ t.p.n = s.p.n) ∧
    (t.p.i = true ↔ s.p.i = true ∨ s.peek s.pc = 0x78) ∧
    (t.p.d = true ↔ s.p.d = true ∧ s.peek s.pc ≠ 0xD8) ∧
    (t.p.b = true ↔ s.p.b = true ∨ s.peek s.pc = 0x00) ∧
    t.p.v = s.p.v

/-- The writers of memory (R38, R50, R57, R58): only STA, PHA and JSR change a byte, and no step ever
changes what is read at 0x2000 or above, the ROM with it. -/
def Obligations.MemoryHasOnlyItsWriters : Prop :=
  ∀ s t : State, step s = .next t →
    (s.peek s.pc ∉ ([0x85, 0x8D, 0x48, 0x20] : List Byte) → ∀ a, t.peek a = s.peek a) ∧
    (∀ a : Word, 0x2000 ≤ a.toNat → t.peek a = s.peek a) ∧ t.prgSize = s.prgSize

/-- A store to 0x8000 to 0xFFFF is discarded (R57): it completes with its normal cycle cost and changes
no register and no byte. -/
def Obligations.StoreToRomIsDiscarded : Prop :=
  ∀ (addr : Word) (s : State), 0x8000 ≤ addr.toNat →
    ∃ t, exec (.staAbs addr) s = .next t ∧ t.toRegisters = s.toRegisters ∧
      (∀ a, t.peek a = s.peek a) ∧ t.prg = s.prg ∧ t.report = some (.done 4)

/-- The window 0x2000 to 0x7FFF (R56): a read there returns 0x00 every time, whatever was written
before, and has no side effect, and a write there changes nothing. -/
def Obligations.EmptyWindowReadsZero : Prop :=
  ∀ (addr : Word) (s : State), 0x2000 ≤ addr.toNat → addr.toNat < 0x8000 →
    (memRead addr s).1 = 0x00 ∧
    (memRead addr s).2.toRegisters = s.toRegisters ∧
    (∀ a, (memRead addr s).2.peek a = s.peek a) ∧
    ∀ v : Byte, (memRead addr (memWrite addr v s)).1 = 0x00 ∧
      (memWrite addr v s).toRegisters = s.toRegisters ∧
      ∀ a, (memWrite addr v s).peek a = s.peek a

/-- RAM is mirrored every 0x800 bytes (R54): below 0x2000 a read is the read of `addr mod 0x800` and a
write is the write to it, so the four addresses of a cell are one cell. -/
def Obligations.RamIsMirrored : Prop :=
  ∀ (addr : Word) (s : State), addr.toNat < 0x2000 →
    s.peek addr = s.peek (BitVec.ofNat 16 (addr.toNat % 0x800)) ∧
    ∀ (v : Byte) (a : Word),
      (memWrite addr v s).peek a = (memWrite (BitVec.ofNat 16 (addr.toNat % 0x800)) v s).peek a

/-- A 16 KiB ROM is mirrored twice, and the reset vector is its last four bytes' third and fourth from
the end (R55, R244). -/
def Obligations.SmallRomIsMirrored : Prop :=
  ∀ (s : State) (k : Nat), s.prgSize = .kib16 → k < 0x4000 →
    s.peek (BitVec.ofNat 16 (0x8000 + k)) = s.peek (BitVec.ofNat 16 (0xC000 + k)) ∧
    s.peek (BitVec.ofNat 16 (0x8000 + k)) = s.prg.read k

/-- Code written into RAM is executed with no further action (R68): a store to the cell of the very
next opcode is what the next step fetches. -/
def Obligations.StoredCodeIsFetchedNext : Prop :=
  ∀ (s : State) (lo hi : Byte), s.Running → s.BytesAt s.pc [0x8D, lo, hi] →
    SameRamCell (absWord lo hi) (s.pc + 3) →
    ∃ t, step s = .next t ∧ t.pc = s.pc + 3 ∧ t.peek t.pc = s.a

/-- The fixed cycle costs (R262): every step that completes reports the number of the Cycles column of
its opcode, and a faulting step reports none. -/
def Obligations.StepsReportTheirCycleCost : Prop :=
  ∀ s : State, s.Running →
    (s.peek s.pc = 0x00 → ∃ t, step s = .next t ∧ t.report = some (.halt 7)) ∧
    (s.peek s.pc ∈
        ([0xEA, 0xA9, 0xA2, 0xE8, 0xCA, 0x78, 0xD8, 0x9A, 0xBA, 0x69] : List Byte) →
      ∃ t, step s = .next t ∧ t.report = some (.done 2)) ∧
    (s.peek s.pc ∈ ([0xA5, 0x85, 0x4C, 0x48] : List Byte) →
      ∃ t, step s = .next t ∧ t.report = some (.done 3)) ∧
    (s.peek s.pc ∈ ([0xAD, 0x8D, 0x68] : List Byte) →
      ∃ t, step s = .next t ∧ t.report = some (.done 4)) ∧
    (s.peek s.pc ∈ ([0x20, 0x60] : List Byte) →
      ∃ t, step s = .next t ∧ t.report = some (.done 6)) ∧
    (∀ op left, step s = .fault (.unsupportedOpcode op left) → left.report = none)

/-- The complete list of bus transactions of every instruction, in order (R66 with D6, the spec's
decision): the reads of its own bytes, then its data accesses, and no other. -/
def Obligations.StepsMakeExactlyTheseBusTransactions : Prop :=
  ∀ (s : State) (i : Instr), s.Running → s.BytesAt s.pc (encode i) →
    ∃ t, step s = .next t ∧
      t.bus = s.fetchReads s.pc (encode i).length ++ dataTransactions s i

/-! ## Invariants -/

/-- Every step keeps the memories in canonical form and within RAM's cells and the PRG buffer (R54,
R55, R58). -/
def Obligations.StepKeepsMemoryCanonical : Prop :=
  ∀ s t : State, MemoryCanonical s → step s = .next t → MemoryCanonical t

/-- Every step keeps P in the form that a program can reach from reset: I set, D and V clear, never both
Z and N (R39; V by the model's ADC_V_MODE, log entry 3). -/
def Obligations.StepKeepsStatusReachable : Prop :=
  ∀ s t : State, StatusReachable s.p → step s = .next t → StatusReachable t.p

/-- The reset state meets both invariants (R41). -/
def Obligations.ResetStateMeetsTheInvariants : Prop :=
  MemoryCanonical State.reset ∧ StatusReachable State.reset.p ∧ State.reset.Running

/-- Every machine that boots meets both invariants and runs, whatever ROM and initial registers it is
given (R242, R243). -/
def Obligations.BootMeetsTheInvariants : Prop :=
  ∀ (prg : List Byte) (a x y : Byte) (s : State), boot prg a x y = .next s →
    MemoryCanonical s ∧ StatusReachable s.p ∧ s.Running

/-- The canonical form is canonical: two memories in it that read alike at every index are equal data
(the model's own representation of R51's memory). -/
def Obligations.CanonicalMemoriesThatReadAlikeAreEqual : Prop :=
  ∀ m n : Memory, m.wf → n.wf → (∀ a, m.read a = n.read a) → m = n

/-- The status byte of the snapshot at the bit positions of R29 (D2, log entry 4): Unused always reads 1
(R35), the byte determines the flags, and in the reachable form it is
0x24 + 0x10 B + C + 0x02 Z + 0x80 N (R39). -/
def Obligations.SnapshotShowsTheStatusByte : Prop :=
  (∀ s : State, s.snapshot.p.getLsbD 5 = true ∧ Status.ofByte s.snapshot.p = s.p) ∧
  (∀ v : Byte, (Status.ofByte v).toByte = v ||| 0x20) ∧
  (∀ s : State, StatusReachable s.p → s.snapshot.p.toNat =
    0x24 + 0x10 * s.p.b.toNat + s.p.c.toNat + 0x02 * s.p.z.toNat + 0x80 * s.p.n.toNat)

/-! ## Reset and boot -/

/-- Reset from any state and in any phase (R240, R41; that A, X and Y are kept is the spec's
decision D3): SP = 0xFD, of P only Unused and InterruptDisable set, PC from the little-endian vector
at 0xFFFC, all memory kept, exactly the two vector reads on the bus, no cycle cost reported, and the
machine runs. -/
def Obligations.ResetLoadsTheVector : Prop :=
  ∀ s : State, ∃ t, respond .reset s = .next t ∧
    t.toRegisters =
      { s.toRegisters with
        sp := 0xFD
        pc := absWord (s.peek 0xFFFC) (s.peek 0xFFFD)
        p := { c := false, z := false, i := true, d := false, b := false, v := false, n := false } } ∧
    (∀ a, t.peek a = s.peek a) ∧ t.prgSize = s.prgSize ∧
    t.bus = [.read 0xFFFC (s.peek 0xFFFC), .read 0xFFFD (s.peek 0xFFFD)] ∧
    t.report = none ∧ t.Running

/-- The state the model names right after reset is the boot of a blank 32 KiB ROM with A, X and Y zero
(the model's choices, log entries 1 and 2). -/
def Obligations.ResetStateIsTheBootOfABlankRom : Prop :=
  boot (List.replicate 32768 0x00) 0x00 0x00 0x00 = .next State.reset

/-- Power-on with a ROM of either size and any initial A, X, Y (R41, R242, R244, R245): A, X, Y hold the
initial values, RAM is zero, the ROM reads as the PRG buffer, and PC comes from its fourth and third
byte from the end. -/
def Obligations.BootRunsTheRomAtItsVector : Prop :=
  ∀ (prg : List Byte) (a x y : Byte), prg.length = 16384 ∨ prg.length = 32768 →
    ∃ s, boot prg a x y = .next s ∧ s.a = a ∧ s.x = x ∧ s.y = y ∧ s.sp = 0xFD ∧
      s.p = { c := false, z := false, i := true, d := false, b := false, v := false, n := false } ∧
      s.pc = absWord (prg.getD (prg.length - 4) 0) (prg.getD (prg.length - 3) 0) ∧
      (∀ addr : Word, addr.toNat < 0x2000 → s.peek addr = 0x00) ∧
      (∀ addr : Word, 0x8000 ≤ addr.toNat →
        s.peek addr = prg.getD ((addr.toNat - 0x8000) % prg.length) 0)

/-- A ROM of any other size is refused before the first step, by name (R55 with D10, the spec's
decision). -/
def Obligations.BootRefusesOtherRomSizes : Prop :=
  ∀ (prg : List Byte) (a x y : Byte), prg.length ≠ 16384 → prg.length ≠ 32768 →
    boot prg a x y = .refused (.prgSizeUnsupported prg.length)

/-- The cartridge loader in summary (R247, outside the core): an image shorter than 16 bytes or without
the four magic bytes is invalid; from a well-formed image the PRG and CHR buffers are taken in order
after the header and the trainer; one too short for the sizes its header announces, an announced
trainer with them, is invalid. -/
def Obligations.LoaderTakesPrgThenChr : Prop :=
  (∀ image : List Byte, image.length < 16 ∨ image.take 4 ≠ [0x4E, 0x45, 0x53, 0x1A] →
    loadImage image = none) ∧
  (∀ (n m f : Byte) (pad trainer body : List Byte), pad.length = 9 →
    trainer.length = (if f.getLsbD 2 then 512 else 0) →
    loadImage ([0x4E, 0x45, 0x53, 0x1A, n, m, f] ++ pad ++ trainer ++ body) =
      if body.length < n.toNat * 16384 + m.toNat * 8192 then none
      else some (body.take (n.toNat * 16384),
        (body.drop (n.toNat * 16384)).take (m.toNat * 8192))) ∧
  (∀ (n m f : Byte) (pad rest : List Byte), pad.length = 9 →
    rest.length < (if f.getLsbD 2 then 512 else 0) + n.toNat * 16384 + m.toNat * 8192 →
    loadImage ([0x4E, 0x45, 0x53, 0x1A, n, m, f] ++ pad ++ rest) = none)

/-! ## The run loop -/

/-- A run under a budget ends within it (R215 with D11, the spec's decision; R216): a halted run counted
at least one and at most `n` steps, a stopped run exactly `n`, and no other end than these and the
abort occurs from a running machine. -/
def Obligations.RunEndsWithinItsBudget : Prop :=
  ∀ (n : Nat) (s : State), s.Running →
    (∃ c t, runLoop (some n) n 0 s = .halted c t ∧ 1 ≤ c ∧ c ≤ n) ∨
    (∃ t, runLoop (some n) n 0 s = .stopped n t) ∨
    (∃ op left, runLoop (some n) n 0 s = .aborted op left)

/-- A BRK at PC is executed exactly once, counted once, and ends the run as Halted, unless the budget is
spent, in which case it is not executed (R215, conflict C4; the order is the spec's decision D11). -/
def Obligations.RunHaltsAfterOneBrk : Prop :=
  ∀ (maxSteps : Option Nat) (fuel count : Nat) (s : State), s.Running → s.peek s.pc = 0x00 →
    (budgetSpent maxSteps count = false →
      ∃ t, step s = .next t ∧ t.report = some (.halt 7) ∧
        runLoop maxSteps (fuel + 1) count s = .halted (count + 1) t) ∧
    (budgetSpent maxSteps count = true →
      runLoop maxSteps (fuel + 1) count s = .stopped count s)

/-- The state at the end of a run is the state after as many steps of the core as were counted (R215,
R217): the loop adds nothing to the steps. -/
def Obligations.RunEndsWhereItsStepsLead : Prop :=
  ∀ (maxSteps : Option Nat) (fuel c : Nat) (s t : State),
    (runLoop maxSteps fuel 0 s = .halted c t ∨ runLoop maxSteps fuel 0 s = .stopped c t) →
    Sys2Proof.core.run c s = .next t
end

