-- ==== Sys2Proof/Laws/Decode.lean ====
section
/-! SUPPORT. The halves of a word, and the rows of the opcode map: the 20 lookups and that no two rows
share an opcode. -/

namespace Sys2Proof

/-- `hi * 256 + lo` (R6, R9). -/
theorem wordOf_toNat (lo hi : Byte) : (wordOf lo hi).toNat = hi.toNat * 256 + lo.toNat := by
  have h := lo.isLt
  unfold wordOf
  rw [BitVec.toNat_append, ← Nat.shiftLeft_add_eq_or_of_lt h, Nat.shiftLeft_eq]

theorem loByte_toNat (w : Word) : (loByte w).toNat = w.toNat % 256 := by
  simp [loByte, BitVec.extractLsb'_toNat]

theorem hiByte_toNat (w : Word) : (hiByte w).toNat = w.toNat / 256 := by
  have h := w.isLt
  simp only [hiByte, BitVec.extractLsb'_toNat, Nat.shiftRight_eq_div_pow]
  omega

@[simp] theorem wordOf_lo_hi (w : Word) : wordOf (loByte w) (hiByte w) = w := by
  rw [← BitVec.toNat_inj, wordOf_toNat, loByte_toNat, hiByte_toNat]
  omega

@[simp] theorem loByte_wordOf (lo hi : Byte) : loByte (wordOf lo hi) = lo := by
  have h := lo.isLt
  rw [← BitVec.toNat_inj, loByte_toNat, wordOf_toNat]
  omega

@[simp] theorem hiByte_wordOf (lo hi : Byte) : hiByte (wordOf lo hi) = hi := by
  have h := lo.isLt
  rw [← BitVec.toNat_inj, hiByte_toNat, wordOf_toNat]
  omega

/-- No two rows of the opcode map share an opcode (R86, R87). -/
theorem opcodeMap_pairwise : opcodeMap.Pairwise (fun r q => r.opcode ≠ q.opcode) := by
  simp [opcodeMap]

/-- A row found is a row of the map whose opcode is the byte looked up. -/
theorem lookupOpcode_mem {op : Byte} {row : OpcodeRow} (h : lookupOpcode op = some row) :
    row ∈ opcodeMap ∧ row.opcode = op :=
  ⟨List.mem_of_find?_eq_some h, by simpa using List.find?_some h⟩

section Lookups

@[simp] theorem lookup_brk : lookupOpcode 0x00#8 = some ⟨0x00, .imp, 7, .implied .brk⟩ := rfl
@[simp] theorem lookup_nop : lookupOpcode 0xEA#8 = some ⟨0xEA, .imp, 2, .implied .nop⟩ := rfl
@[simp] theorem lookup_ldaImm : lookupOpcode 0xA9#8 = some ⟨0xA9, .imm, 2, .byte .ldaImm⟩ := rfl
@[simp] theorem lookup_ldaZp : lookupOpcode 0xA5#8 = some ⟨0xA5, .zp, 3, .byte .ldaZp⟩ := rfl
@[simp] theorem lookup_ldaAbs : lookupOpcode 0xAD#8 = some ⟨0xAD, .abs, 4, .word .ldaAbs⟩ := rfl
@[simp] theorem lookup_staZp : lookupOpcode 0x85#8 = some ⟨0x85, .zp, 3, .byte .staZp⟩ := rfl
@[simp] theorem lookup_staAbs : lookupOpcode 0x8D#8 = some ⟨0x8D, .abs, 4, .word .staAbs⟩ := rfl
@[simp] theorem lookup_ldxImm : lookupOpcode 0xA2#8 = some ⟨0xA2, .imm, 2, .byte .ldxImm⟩ := rfl
@[simp] theorem lookup_inx : lookupOpcode 0xE8#8 = some ⟨0xE8, .imp, 2, .implied .inx⟩ := rfl
@[simp] theorem lookup_dex : lookupOpcode 0xCA#8 = some ⟨0xCA, .imp, 2, .implied .dex⟩ := rfl
@[simp] theorem lookup_jmpAbs : lookupOpcode 0x4C#8 = some ⟨0x4C, .abs, 3, .word .jmpAbs⟩ := rfl
@[simp] theorem lookup_jsrAbs : lookupOpcode 0x20#8 = some ⟨0x20, .abs, 6, .word .jsrAbs⟩ := rfl
@[simp] theorem lookup_rts : lookupOpcode 0x60#8 = some ⟨0x60, .imp, 6, .implied .rts⟩ := rfl
@[simp] theorem lookup_sei : lookupOpcode 0x78#8 = some ⟨0x78, .imp, 2, .implied .sei⟩ := rfl
@[simp] theorem lookup_cld : lookupOpcode 0xD8#8 = some ⟨0xD8, .imp, 2, .implied .cld⟩ := rfl
@[simp] theorem lookup_txs : lookupOpcode 0x9A#8 = some ⟨0x9A, .imp, 2, .implied .txs⟩ := rfl
@[simp] theorem lookup_tsx : lookupOpcode 0xBA#8 = some ⟨0xBA, .imp, 2, .implied .tsx⟩ := rfl
@[simp] theorem lookup_pha : lookupOpcode 0x48#8 = some ⟨0x48, .imp, 3, .implied .pha⟩ := rfl
@[simp] theorem lookup_pla : lookupOpcode 0x68#8 = some ⟨0x68, .imp, 4, .implied .pla⟩ := rfl
@[simp] theorem lookup_adcImm : lookupOpcode 0x69#8 = some ⟨0x69, .imm, 2, .byte .adcImm⟩ := rfl

end Lookups

end Sys2Proof
end

