-- ==== Sys2Proof/Laws/Flags.lean ====
section
/-! SUPPORT. One lemma per flag per status update (Machine/Flags.lean), and the value of the wide sum. -/

namespace Sys2Proof.Machine

variable (p : Status)

@[simp] theorem Status.setZN_c (v : Byte) : (p.setZN v).c = p.c := rfl
@[simp] theorem Status.setZN_z (v : Byte) : (p.setZN v).z = (v == 0) := rfl
@[simp] theorem Status.setZN_i (v : Byte) : (p.setZN v).i = p.i := rfl
@[simp] theorem Status.setZN_d (v : Byte) : (p.setZN v).d = p.d := rfl
@[simp] theorem Status.setZN_b (v : Byte) : (p.setZN v).b = p.b := rfl
@[simp] theorem Status.setZN_v (v : Byte) : (p.setZN v).v = p.v := rfl
@[simp] theorem Status.setZN_n (v : Byte) : (p.setZN v).n = v.getLsbD 7 := rfl

theorem Status.setI_eq : p.setI = { p with i := true } := rfl
theorem Status.clearD_eq : p.clearD = { p with d := false } := rfl
theorem Status.setB_eq : p.setB = { p with b := true } := rfl

/-- Under this hardware's mode ADC writes C alone before `SetZN` (R170, R172). -/
theorem Status.setAdc_unchanged (a m : Byte) (sum : Nat) :
    p.setAdc .unchanged a m sum = { p with c := decide (255 < sum) } := rfl

theorem Status.setAdc_signedOverflow (a m : Byte) (sum : Nat) :
    p.setAdc .signedOverflow a m sum =
      { p with c := decide (255 < sum), v := adcOverflow a m sum } := rfl

/-- The wide sum is at most 511 (R170). -/
theorem adcSum_le (a m : Byte) (c : Bool) : adcSum a m c ≤ 511 := by
  have ha := a.isLt
  have hm := m.isLt
  have hc : c.toNat ≤ 1 := Bool.toNat_le c
  unfold adcSum
  omega

end Sys2Proof.Machine
end

