-- ==== Sys2Proof/Laws/Memory.lean ====
section
/-! SUPPORT. The laws of a byte memory: a read after a write, that every operation keeps the canonical
form and its bound, and what a loaded buffer reads as. -/

namespace Sys2Proof.Machine

@[simp] theorem Memory.read_nil (a : Nat) : Memory.read [] a = blankByte := rfl

theorem Memory.read_erase (m : Memory) (a b : Nat) :
    (m.erase a).read b = if b = a then blankByte else m.read b := by
  induction m with
  | nil => simp [Memory.erase]
  | cons c m ih =>
    obtain ⟨k, w⟩ := c
    by_cases hk : k = a
    · simp only [Memory.erase, hk, if_true, ih, Memory.read]
      by_cases hb : b = a
      · simp [hb]
      · simp [hb, Ne.symm hb]
    · simp only [Memory.erase, hk, if_false, Memory.read, ih]
      by_cases hb : k = b
      · simp [hb, show ¬b = a from hb ▸ hk]
      · simp [hb]

theorem Memory.mem_erase {m : Memory} {a : Nat} {c : Host.Cell} :
    c ∈ m.erase a ↔ c ∈ m ∧ c.1 ≠ a := by
  induction m with
  | nil => simp [Memory.erase]
  | cons d m ih =>
    obtain ⟨k, w⟩ := d
    by_cases hk : k = a
    · simp only [Memory.erase, hk, if_true, ih, List.mem_cons]
      constructor
      · rintro ⟨h, h'⟩; exact ⟨.inr h, h'⟩
      · rintro ⟨rfl | h, h'⟩
        · exact absurd rfl h'
        · exact ⟨h, h'⟩
    · simp only [Memory.erase, hk, if_false, List.mem_cons, ih]
      constructor
      · rintro (rfl | ⟨h, h'⟩)
        · exact ⟨.inl rfl, hk⟩
        · exact ⟨.inr h, h'⟩
      · rintro ⟨rfl | h, h'⟩
        · exact .inl rfl
        · exact .inr ⟨h, h'⟩

theorem Memory.read_insert {m : Memory} {a : Nat} (h : ∀ c ∈ m, c.1 ≠ a) (v : Byte) (b : Nat) :
    (m.insert a v).read b = if b = a then v else m.read b := by
  induction m with
  | nil => simp [Memory.insert, Memory.read, eq_comm]
  | cons c m ih =>
    obtain ⟨k, w⟩ := c
    have hk : k ≠ a := h _ List.mem_cons_self
    have ih := ih fun c hc => h c (List.mem_cons_of_mem _ hc)
    by_cases hlt : a < k
    · simp only [Memory.insert, hlt, if_true, Memory.read]
      by_cases hb : b = a
      · simp [hb]
      · simp [hb, Ne.symm hb]
    · simp only [Memory.insert, hlt, if_false, Memory.read, ih]
      by_cases hb : k = b
      · simp [hb, show ¬b = a from hb ▸ hk]
      · simp [hb]

theorem Memory.mem_insert {m : Memory} {a : Nat} {v : Byte} {c : Host.Cell} :
    c ∈ m.insert a v ↔ c = (a, v) ∨ c ∈ m := by
  induction m with
  | nil => simp [Memory.insert]
  | cons d m ih =>
    obtain ⟨k, w⟩ := d
    by_cases hlt : a < k
    · simp [Memory.insert, hlt]
    · simp only [Memory.insert, hlt, if_false, List.mem_cons, ih]
      tauto

/-- A read after a write, of any memory: the index written reads as the byte written, every other as
before. -/
theorem Memory.read_write (m : Memory) (a : Nat) (v : Byte) (b : Nat) :
    (m.write a v).read b = if b = a then v else m.read b := by
  have herase : ∀ c ∈ m.erase a, c.1 ≠ a := fun c hc => (Memory.mem_erase.mp hc).2
  unfold Memory.write
  by_cases hv : v = blankByte
  · simp [hv, Memory.read_erase]
  · simp only [hv, if_false, Memory.read_insert herase, Memory.read_erase]
    split <;> rfl

theorem Memory.wf_erase {m : Memory} (h : m.wf) (a : Nat) : (m.erase a).wf := by
  refine ⟨?_, fun c hc => h.2 c (Memory.mem_erase.mp hc).1⟩
  have hp := h.1
  clear h
  induction m with
  | nil => simp [Memory.erase]
  | cons d m ih =>
    obtain ⟨k, w⟩ := d
    obtain ⟨hd, hm⟩ := List.pairwise_cons.mp hp
    by_cases hk : k = a
    · simpa only [Memory.erase, hk, if_true] using ih hm
    · simp only [Memory.erase, hk, if_false, List.pairwise_cons]
      exact ⟨fun c hc => hd c (Memory.mem_erase.mp hc).1, ih hm⟩

theorem Memory.wf_insert {m : Memory} (h : m.wf) {a : Nat} (hne : ∀ c ∈ m, c.1 ≠ a) {v : Byte}
    (hv : v ≠ blankByte) : (m.insert a v).wf := by
  refine ⟨?_, ?_⟩
  · have hp := h.1
    clear h
    induction m with
    | nil => simp [Memory.insert]
    | cons d m ih =>
      obtain ⟨k, w⟩ := d
      obtain ⟨hd, hm⟩ := List.pairwise_cons.mp hp
      have hk : k ≠ a := hne _ List.mem_cons_self
      by_cases hlt : a < k
      · simp only [Memory.insert, hlt, if_true, List.pairwise_cons]
        refine ⟨fun c hc => ?_, hd, hm⟩
        rcases List.mem_cons.mp hc with rfl | hc
        · exact hlt
        · exact lt_trans hlt (hd c hc)
      · simp only [Memory.insert, hlt, if_false, List.pairwise_cons]
        refine ⟨fun c hc => ?_, ih (fun c hc => hne c (List.mem_cons_of_mem _ hc)) hm⟩
        rcases Memory.mem_insert.mp hc with rfl | hc
        · show k < a; omega
        · exact hd c hc
  · intro c hc
    rcases Memory.mem_insert.mp hc with rfl | hc
    · exact hv
    · exact h.2 c hc

/-- A write keeps the canonical form. -/
theorem Memory.wf_write {m : Memory} (h : m.wf) (a : Nat) (v : Byte) : (m.write a v).wf := by
  unfold Memory.write
  by_cases hv : v = blankByte
  · simpa only [hv, if_true] using Memory.wf_erase h a
  · simpa only [hv, if_false] using
      Memory.wf_insert (Memory.wf_erase h a) (fun c hc => (Memory.mem_erase.mp hc).2) hv

/-- A write below the bound keeps the bound. -/
theorem Memory.below_write {m : Memory} {n : Nat} (h : m.below n) {a : Nat} (ha : a < n) (v : Byte) :
    (m.write a v).below n := by
  intro c hc
  unfold Memory.write at hc
  split at hc
  · exact h c (Memory.mem_erase.mp hc).1
  · rcases Memory.mem_insert.mp hc with rfl | hc
    · exact ha
    · exact h c (Memory.mem_erase.mp hc).1

theorem Memory.wf_nil : Memory.wf [] := by simp [Memory.wf]

theorem Memory.below_nil (n : Nat) : Memory.below [] n := by simp [Memory.below]

/-- The indices of a loaded buffer. -/
theorem Memory.index_ofBytesFrom (bytes : List Byte) :
    ∀ (start : Nat), ∀ c ∈ Memory.ofBytesFrom start bytes, start ≤ c.1 ∧ c.1 < start + bytes.length := by
  induction bytes with
  | nil => simp [Memory.ofBytesFrom]
  | cons b bs ih =>
    intro start c hc
    unfold Memory.ofBytesFrom at hc
    split at hc
    · have := ih (start + 1) c hc
      simp only [List.length_cons]; omega
    · rcases List.mem_cons.mp hc with rfl | hc
      · simp
      · have := ih (start + 1) c hc
        simp only [List.length_cons]; omega

/-- A loaded buffer is canonical. -/
theorem Memory.wf_ofBytesFrom (bytes : List Byte) :
    ∀ start : Nat, (Memory.ofBytesFrom start bytes).wf := by
  induction bytes with
  | nil => exact fun _ => Memory.wf_nil
  | cons b bs ih =>
    intro start
    unfold Memory.ofBytesFrom
    split
    · exact ih (start + 1)
    · rename_i hb
      refine ⟨List.pairwise_cons.mpr ⟨fun c hc => ?_, (ih (start + 1)).1⟩, fun c hc => ?_⟩
      · exact (Memory.index_ofBytesFrom bs (start + 1) c hc).1
      · rcases List.mem_cons.mp hc with rfl | hc
        · exact hb
        · exact (ih (start + 1)).2 c hc

/-- A loaded buffer reads as its bytes. -/
theorem Memory.read_ofBytesFrom (bytes : List Byte) :
    ∀ start k : Nat, (Memory.ofBytesFrom start bytes).read (start + k) = bytes.getD k blankByte := by
  induction bytes with
  | nil => simp [Memory.ofBytesFrom]
  | cons b bs ih =>
    intro start k
    unfold Memory.ofBytesFrom
    rcases k with _ | k
    · split
      · rename_i hb
        simp only [Nat.add_zero, List.getD_cons_zero, hb]
        have hnone : ∀ (m : Memory), (∀ c ∈ m, start < c.1) → m.read start = blankByte := by
          intro m
          induction m with
          | nil => simp
          | cons c m ihm =>
            intro hm
            obtain ⟨k, w⟩ := c
            have hk : start < k := hm _ List.mem_cons_self
            simp only [Memory.read, show k ≠ start by omega, if_false]
            exact ihm fun c hc => hm c (List.mem_cons_of_mem _ hc)
        exact hnone _ fun c hc => (Memory.index_ofBytesFrom bs (start + 1) c hc).1
      · simp [Memory.read]
    · have h := ih (start + 1) k
      rw [show start + 1 + k = start + (k + 1) by omega] at h
      split
      · simpa using h
      · simp only [Memory.read, show start ≠ start + (k + 1) by omega, if_false, List.getD_cons_succ, h]

end Sys2Proof.Machine
end

