-- ==== Sys2Proof/Laws/State.lean ====
section
/-! SUPPORT. One lemma per field of State per named update (Machine/Ops.lean), and the registers and the
reads of memory after each update. -/

namespace Sys2Proof.Machine

variable (s : State)

/-! ### `State.setA` -/

@[simp] theorem State.setA_a (v : Byte) : (s.setA v).a = v := rfl
@[simp] theorem State.setA_x (v : Byte) : (s.setA v).x = s.x := rfl
@[simp] theorem State.setA_y (v : Byte) : (s.setA v).y = s.y := rfl
@[simp] theorem State.setA_sp (v : Byte) : (s.setA v).sp = s.sp := rfl
@[simp] theorem State.setA_pc (v : Byte) : (s.setA v).pc = s.pc := rfl
@[simp] theorem State.setA_p (v : Byte) : (s.setA v).p = s.p := rfl
@[simp] theorem State.setA_ram (v : Byte) : (s.setA v).ram = s.ram := rfl
@[simp] theorem State.setA_prg (v : Byte) : (s.setA v).prg = s.prg := rfl
@[simp] theorem State.setA_prgSize (v : Byte) : (s.setA v).prgSize = s.prgSize := rfl
@[simp] theorem State.setA_phase (v : Byte) : (s.setA v).phase = s.phase := rfl
@[simp] theorem State.setA_report (v : Byte) : (s.setA v).report = s.report := rfl
@[simp] theorem State.setA_bus (v : Byte) : (s.setA v).bus = s.bus := rfl
@[simp] theorem State.setA_toRegisters (v : Byte) :
    (s.setA v).toRegisters = { s.toRegisters with a := v } := rfl
@[simp] theorem State.setA_peek (v : Byte) (addr : Word) : (s.setA v).peek addr = s.peek addr := rfl

/-! ### `State.setX` -/

@[simp] theorem State.setX_a (v : Byte) : (s.setX v).a = s.a := rfl
@[simp] theorem State.setX_x (v : Byte) : (s.setX v).x = v := rfl
@[simp] theorem State.setX_y (v : Byte) : (s.setX v).y = s.y := rfl
@[simp] theorem State.setX_sp (v : Byte) : (s.setX v).sp = s.sp := rfl
@[simp] theorem State.setX_pc (v : Byte) : (s.setX v).pc = s.pc := rfl
@[simp] theorem State.setX_p (v : Byte) : (s.setX v).p = s.p := rfl
@[simp] theorem State.setX_ram (v : Byte) : (s.setX v).ram = s.ram := rfl
@[simp] theorem State.setX_prg (v : Byte) : (s.setX v).prg = s.prg := rfl
@[simp] theorem State.setX_prgSize (v : Byte) : (s.setX v).prgSize = s.prgSize := rfl
@[simp] theorem State.setX_phase (v : Byte) : (s.setX v).phase = s.phase := rfl
@[simp] theorem State.setX_report (v : Byte) : (s.setX v).report = s.report := rfl
@[simp] theorem State.setX_bus (v : Byte) : (s.setX v).bus = s.bus := rfl
@[simp] theorem State.setX_toRegisters (v : Byte) :
    (s.setX v).toRegisters = { s.toRegisters with x := v } := rfl
@[simp] theorem State.setX_peek (v : Byte) (addr : Word) : (s.setX v).peek addr = s.peek addr := rfl

/-! ### `State.setSp` -/

@[simp] theorem State.setSp_a (v : Byte) : (s.setSp v).a = s.a := rfl
@[simp] theorem State.setSp_x (v : Byte) : (s.setSp v).x = s.x := rfl
@[simp] theorem State.setSp_y (v : Byte) : (s.setSp v).y = s.y := rfl
@[simp] theorem State.setSp_sp (v : Byte) : (s.setSp v).sp = v := rfl
@[simp] theorem State.setSp_pc (v : Byte) : (s.setSp v).pc = s.pc := rfl
@[simp] theorem State.setSp_p (v : Byte) : (s.setSp v).p = s.p := rfl
@[simp] theorem State.setSp_ram (v : Byte) : (s.setSp v).ram = s.ram := rfl
@[simp] theorem State.setSp_prg (v : Byte) : (s.setSp v).prg = s.prg := rfl
@[simp] theorem State.setSp_prgSize (v : Byte) : (s.setSp v).prgSize = s.prgSize := rfl
@[simp] theorem State.setSp_phase (v : Byte) : (s.setSp v).phase = s.phase := rfl
@[simp] theorem State.setSp_report (v : Byte) : (s.setSp v).report = s.report := rfl
@[simp] theorem State.setSp_bus (v : Byte) : (s.setSp v).bus = s.bus := rfl
@[simp] theorem State.setSp_toRegisters (v : Byte) :
    (s.setSp v).toRegisters = { s.toRegisters with sp := v } := rfl
@[simp] theorem State.setSp_peek (v : Byte) (addr : Word) : (s.setSp v).peek addr = s.peek addr := rfl

/-! ### `State.setPc` -/

@[simp] theorem State.setPc_a (v : Word) : (s.setPc v).a = s.a := rfl
@[simp] theorem State.setPc_x (v : Word) : (s.setPc v).x = s.x := rfl
@[simp] theorem State.setPc_y (v : Word) : (s.setPc v).y = s.y := rfl
@[simp] theorem State.setPc_sp (v : Word) : (s.setPc v).sp = s.sp := rfl
@[simp] theorem State.setPc_pc (v : Word) : (s.setPc v).pc = v := rfl
@[simp] theorem State.setPc_p (v : Word) : (s.setPc v).p = s.p := rfl
@[simp] theorem State.setPc_ram (v : Word) : (s.setPc v).ram = s.ram := rfl
@[simp] theorem State.setPc_prg (v : Word) : (s.setPc v).prg = s.prg := rfl
@[simp] theorem State.setPc_prgSize (v : Word) : (s.setPc v).prgSize = s.prgSize := rfl
@[simp] theorem State.setPc_phase (v : Word) : (s.setPc v).phase = s.phase := rfl
@[simp] theorem State.setPc_report (v : Word) : (s.setPc v).report = s.report := rfl
@[simp] theorem State.setPc_bus (v : Word) : (s.setPc v).bus = s.bus := rfl
@[simp] theorem State.setPc_toRegisters (v : Word) :
    (s.setPc v).toRegisters = { s.toRegisters with pc := v } := rfl
@[simp] theorem State.setPc_peek (v : Word) (addr : Word) : (s.setPc v).peek addr = s.peek addr := rfl

/-! ### `State.setP` -/

@[simp] theorem State.setP_a (v : Status) : (s.setP v).a = s.a := rfl
@[simp] theorem State.setP_x (v : Status) : (s.setP v).x = s.x := rfl
@[simp] theorem State.setP_y (v : Status) : (s.setP v).y = s.y := rfl
@[simp] theorem State.setP_sp (v : Status) : (s.setP v).sp = s.sp := rfl
@[simp] theorem State.setP_pc (v : Status) : (s.setP v).pc = s.pc := rfl
@[simp] theorem State.setP_p (v : Status) : (s.setP v).p = v := rfl
@[simp] theorem State.setP_ram (v : Status) : (s.setP v).ram = s.ram := rfl
@[simp] theorem State.setP_prg (v : Status) : (s.setP v).prg = s.prg := rfl
@[simp] theorem State.setP_prgSize (v : Status) : (s.setP v).prgSize = s.prgSize := rfl
@[simp] theorem State.setP_phase (v : Status) : (s.setP v).phase = s.phase := rfl
@[simp] theorem State.setP_report (v : Status) : (s.setP v).report = s.report := rfl
@[simp] theorem State.setP_bus (v : Status) : (s.setP v).bus = s.bus := rfl
@[simp] theorem State.setP_toRegisters (v : Status) :
    (s.setP v).toRegisters = { s.toRegisters with p := v } := rfl
@[simp] theorem State.setP_peek (v : Status) (addr : Word) : (s.setP v).peek addr = s.peek addr := rfl

/-! ### `State.setZN` -/

@[simp] theorem State.setZN_a (v : Byte) : (s.setZN v).a = s.a := rfl
@[simp] theorem State.setZN_x (v : Byte) : (s.setZN v).x = s.x := rfl
@[simp] theorem State.setZN_y (v : Byte) : (s.setZN v).y = s.y := rfl
@[simp] theorem State.setZN_sp (v : Byte) : (s.setZN v).sp = s.sp := rfl
@[simp] theorem State.setZN_pc (v : Byte) : (s.setZN v).pc = s.pc := rfl
@[simp] theorem State.setZN_p (v : Byte) : (s.setZN v).p = s.p.setZN v := rfl
@[simp] theorem State.setZN_ram (v : Byte) : (s.setZN v).ram = s.ram := rfl
@[simp] theorem State.setZN_prg (v : Byte) : (s.setZN v).prg = s.prg := rfl
@[simp] theorem State.setZN_prgSize (v : Byte) : (s.setZN v).prgSize = s.prgSize := rfl
@[simp] theorem State.setZN_phase (v : Byte) : (s.setZN v).phase = s.phase := rfl
@[simp] theorem State.setZN_report (v : Byte) : (s.setZN v).report = s.report := rfl
@[simp] theorem State.setZN_bus (v : Byte) : (s.setZN v).bus = s.bus := rfl
@[simp] theorem State.setZN_toRegisters (v : Byte) :
    (s.setZN v).toRegisters = { s.toRegisters with p := s.p.setZN v } := rfl
@[simp] theorem State.setZN_peek (v : Byte) (addr : Word) : (s.setZN v).peek addr = s.peek addr := rfl

/-! ### `State.setRam` -/

@[simp] theorem State.setRam_a (m : Memory) : (s.setRam m).a = s.a := rfl
@[simp] theorem State.setRam_x (m : Memory) : (s.setRam m).x = s.x := rfl
@[simp] theorem State.setRam_y (m : Memory) : (s.setRam m).y = s.y := rfl
@[simp] theorem State.setRam_sp (m : Memory) : (s.setRam m).sp = s.sp := rfl
@[simp] theorem State.setRam_pc (m : Memory) : (s.setRam m).pc = s.pc := rfl
@[simp] theorem State.setRam_p (m : Memory) : (s.setRam m).p = s.p := rfl
@[simp] theorem State.setRam_ram (m : Memory) : (s.setRam m).ram = m := rfl
@[simp] theorem State.setRam_prg (m : Memory) : (s.setRam m).prg = s.prg := rfl
@[simp] theorem State.setRam_prgSize (m : Memory) : (s.setRam m).prgSize = s.prgSize := rfl
@[simp] theorem State.setRam_phase (m : Memory) : (s.setRam m).phase = s.phase := rfl
@[simp] theorem State.setRam_report (m : Memory) : (s.setRam m).report = s.report := rfl
@[simp] theorem State.setRam_bus (m : Memory) : (s.setRam m).bus = s.bus := rfl
@[simp] theorem State.setRam_toRegisters (m : Memory) :
    (s.setRam m).toRegisters = s.toRegisters := rfl

/-! ### `State.setPhase` -/

@[simp] theorem State.setPhase_a (ph : Phase) : (s.setPhase ph).a = s.a := rfl
@[simp] theorem State.setPhase_x (ph : Phase) : (s.setPhase ph).x = s.x := rfl
@[simp] theorem State.setPhase_y (ph : Phase) : (s.setPhase ph).y = s.y := rfl
@[simp] theorem State.setPhase_sp (ph : Phase) : (s.setPhase ph).sp = s.sp := rfl
@[simp] theorem State.setPhase_pc (ph : Phase) : (s.setPhase ph).pc = s.pc := rfl
@[simp] theorem State.setPhase_p (ph : Phase) : (s.setPhase ph).p = s.p := rfl
@[simp] theorem State.setPhase_ram (ph : Phase) : (s.setPhase ph).ram = s.ram := rfl
@[simp] theorem State.setPhase_prg (ph : Phase) : (s.setPhase ph).prg = s.prg := rfl
@[simp] theorem State.setPhase_prgSize (ph : Phase) : (s.setPhase ph).prgSize = s.prgSize := rfl
@[simp] theorem State.setPhase_phase (ph : Phase) : (s.setPhase ph).phase = ph := rfl
@[simp] theorem State.setPhase_report (ph : Phase) : (s.setPhase ph).report = s.report := rfl
@[simp] theorem State.setPhase_bus (ph : Phase) : (s.setPhase ph).bus = s.bus := rfl
@[simp] theorem State.setPhase_toRegisters (ph : Phase) :
    (s.setPhase ph).toRegisters = s.toRegisters := rfl
@[simp] theorem State.setPhase_peek (ph : Phase) (addr : Word) : (s.setPhase ph).peek addr = s.peek addr := rfl

/-! ### `State.setReport` -/

@[simp] theorem State.setReport_a (r : Option Report) : (s.setReport r).a = s.a := rfl
@[simp] theorem State.setReport_x (r : Option Report) : (s.setReport r).x = s.x := rfl
@[simp] theorem State.setReport_y (r : Option Report) : (s.setReport r).y = s.y := rfl
@[simp] theorem State.setReport_sp (r : Option Report) : (s.setReport r).sp = s.sp := rfl
@[simp] theorem State.setReport_pc (r : Option Report) : (s.setReport r).pc = s.pc := rfl
@[simp] theorem State.setReport_p (r : Option Report) : (s.setReport r).p = s.p := rfl
@[simp] theorem State.setReport_ram (r : Option Report) : (s.setReport r).ram = s.ram := rfl
@[simp] theorem State.setReport_prg (r : Option Report) : (s.setReport r).prg = s.prg := rfl
@[simp] theorem State.setReport_prgSize (r : Option Report) : (s.setReport r).prgSize = s.prgSize := rfl
@[simp] theorem State.setReport_phase (r : Option Report) : (s.setReport r).phase = s.phase := rfl
@[simp] theorem State.setReport_report (r : Option Report) : (s.setReport r).report = r := rfl
@[simp] theorem State.setReport_bus (r : Option Report) : (s.setReport r).bus = s.bus := rfl
@[simp] theorem State.setReport_toRegisters (r : Option Report) :
    (s.setReport r).toRegisters = s.toRegisters := rfl
@[simp] theorem State.setReport_peek (r : Option Report) (addr : Word) : (s.setReport r).peek addr = s.peek addr := rfl

/-! ### `State.logBus` -/

@[simp] theorem State.logBus_a (e : BusTxn) : (s.logBus e).a = s.a := rfl
@[simp] theorem State.logBus_x (e : BusTxn) : (s.logBus e).x = s.x := rfl
@[simp] theorem State.logBus_y (e : BusTxn) : (s.logBus e).y = s.y := rfl
@[simp] theorem State.logBus_sp (e : BusTxn) : (s.logBus e).sp = s.sp := rfl
@[simp] theorem State.logBus_pc (e : BusTxn) : (s.logBus e).pc = s.pc := rfl
@[simp] theorem State.logBus_p (e : BusTxn) : (s.logBus e).p = s.p := rfl
@[simp] theorem State.logBus_ram (e : BusTxn) : (s.logBus e).ram = s.ram := rfl
@[simp] theorem State.logBus_prg (e : BusTxn) : (s.logBus e).prg = s.prg := rfl
@[simp] theorem State.logBus_prgSize (e : BusTxn) : (s.logBus e).prgSize = s.prgSize := rfl
@[simp] theorem State.logBus_phase (e : BusTxn) : (s.logBus e).phase = s.phase := rfl
@[simp] theorem State.logBus_report (e : BusTxn) : (s.logBus e).report = s.report := rfl
@[simp] theorem State.logBus_bus (e : BusTxn) : (s.logBus e).bus = s.bus ++ [e] := rfl
@[simp] theorem State.logBus_toRegisters (e : BusTxn) :
    (s.logBus e).toRegisters = s.toRegisters := rfl
@[simp] theorem State.logBus_peek (e : BusTxn) (addr : Word) : (s.logBus e).peek addr = s.peek addr := rfl

/-! ### `State.begin` -/

@[simp] theorem State.begin_a : (s.begin).a = s.a := rfl
@[simp] theorem State.begin_x : (s.begin).x = s.x := rfl
@[simp] theorem State.begin_y : (s.begin).y = s.y := rfl
@[simp] theorem State.begin_sp : (s.begin).sp = s.sp := rfl
@[simp] theorem State.begin_pc : (s.begin).pc = s.pc := rfl
@[simp] theorem State.begin_p : (s.begin).p = s.p := rfl
@[simp] theorem State.begin_ram : (s.begin).ram = s.ram := rfl
@[simp] theorem State.begin_prg : (s.begin).prg = s.prg := rfl
@[simp] theorem State.begin_prgSize : (s.begin).prgSize = s.prgSize := rfl
@[simp] theorem State.begin_phase : (s.begin).phase = s.phase := rfl
@[simp] theorem State.begin_report : (s.begin).report = none := rfl
@[simp] theorem State.begin_bus : (s.begin).bus = [] := rfl
@[simp] theorem State.begin_toRegisters :
    (s.begin).toRegisters = s.toRegisters := rfl
@[simp] theorem State.begin_peek (addr : Word) : (s.begin).peek addr = s.peek addr := rfl

/-- Reads depend on the memories and the ROM size alone. -/
theorem State.peek_congr (t : State) (hram : t.ram = s.ram) (hprg : t.prg = s.prg)
    (hsize : t.prgSize = s.prgSize) (addr : Word) : t.peek addr = s.peek addr := by
  simp only [State.peek, hram, hprg, hsize]

end Sys2Proof.Machine
end

