-- ==== Sys2Proof/Laws/Ops.lean ====
section
/-! SUPPORT. What each shared operation of Machine/Ops.lean and Machine/Operands.lean does: its
value, the registers, every byte of memory, the other fields, and that it keeps the memories
canonical. -/

namespace Sys2Proof.Machine

variable (s : State)

/-! ## MemRead and MemWrite -/

/-- Below 0x2000 a read is of the RAM cell (R51, R54). -/
theorem peek_ram {addr : Word} (h : addr.toNat < 0x2000) :
    s.peek addr = s.ram.read (addr.toNat % 0x800) := by
  rw [State.peek, if_pos h]; rfl

/-- The empty window reads 0x00 (R56). -/
theorem peek_window {addr : Word} (h : 0x2000 ≤ addr.toNat) (h' : addr.toNat < 0x8000) :
    s.peek addr = 0x00 := by
  rw [State.peek, if_neg (Nat.not_lt.mpr h), if_pos h']

/-- From 0x8000 on a read is of the PRG buffer (R55). -/
theorem peek_rom {addr : Word} (h : 0x8000 ≤ addr.toNat) :
    s.peek addr = s.prg.read (romIndex s.prgSize addr) := by
  rw [State.peek, if_neg (by omega), if_neg (Nat.not_lt.mpr h)]

theorem romIndex_kib16 (addr : Word) : romIndex .kib16 addr = (addr.toNat - 0x8000) % 16384 := rfl
theorem romIndex_kib32 (addr : Word) : romIndex .kib32 addr = addr.toNat - 0x8000 := rfl

/-- After a store, an address of the stored cell reads as the byte stored. -/
theorem afterStore_same {read : Word → Byte} {addr a : Word} (h : SameRamCell addr a) (v : Byte) :
    afterStore read addr v a = v := if_pos h

/-- After a store, every other address reads as before. -/
theorem afterStore_other {read : Word → Byte} {addr a : Word} (h : ¬SameRamCell addr a) (v : Byte) :
    afterStore read addr v a = read a := if_neg h

/-- A store never changes what is read at 0x2000 or above. -/
theorem afterStore_high {read : Word → Byte} {addr a : Word} (h : 0x2000 ≤ a.toNat) (v : Byte) :
    afterStore read addr v a = read a := afterStore_other (fun hc => absurd hc.2.1 (by omega)) v

@[simp] theorem memRead_fst (addr : Word) : (memRead addr s).1 = s.peek addr := rfl
@[simp] theorem memRead_snd (addr : Word) :
    (memRead addr s).2 = s.logBus (.read addr (s.peek addr)) := rfl

@[simp] theorem memWrite_toRegisters (addr : Word) (v : Byte) :
    (memWrite addr v s).toRegisters = s.toRegisters := by unfold memWrite; split <;> rfl
@[simp] theorem memWrite_prg (addr : Word) (v : Byte) : (memWrite addr v s).prg = s.prg := by
  unfold memWrite; split <;> rfl
@[simp] theorem memWrite_prgSize (addr : Word) (v : Byte) :
    (memWrite addr v s).prgSize = s.prgSize := by unfold memWrite; split <;> rfl
@[simp] theorem memWrite_phase (addr : Word) (v : Byte) : (memWrite addr v s).phase = s.phase := by
  unfold memWrite; split <;> rfl
@[simp] theorem memWrite_report (addr : Word) (v : Byte) :
    (memWrite addr v s).report = s.report := by unfold memWrite; split <;> rfl
@[simp] theorem memWrite_bus (addr : Word) (v : Byte) :
    (memWrite addr v s).bus = s.bus ++ [.write addr v] := by unfold memWrite; split <;> rfl
theorem memWrite_ram (addr : Word) (v : Byte) :
    (memWrite addr v s).ram =
      if addr.toNat < 0x2000 then s.ram.write (ramCell addr) v else s.ram := by
  unfold memWrite; split <;> rfl

/-- Every byte of memory after a store (R52, R54). -/
theorem memWrite_peek (addr : Word) (v : Byte) (a : Word) :
    (memWrite addr v s).peek a = afterStore s.peek addr v a := by
  simp only [State.peek, memWrite_ram, memWrite_prg, memWrite_prgSize, afterStore, SameRamCell]
  by_cases ha : a.toNat < 0x2000
  · by_cases h : addr.toNat < 0x2000
    · simp [ha, h, Memory.read_write, ramCell]
    · simp [ha, h]
  · simp [ha]

theorem ramCell_lt (addr : Word) : ramCell addr < 0x800 := Nat.mod_lt _ (by decide)

/-- A store keeps the memories canonical. -/
theorem memWrite_canonical {s : State} (h : MemoryCanonical s) (addr : Word) (v : Byte) :
    MemoryCanonical (memWrite addr v s) := by
  refine ⟨?_, ?_, by simpa using h.prgForm, by simpa using h.prgBound⟩
  · rw [memWrite_ram]; split
    · exact Memory.wf_write h.ramForm _ _
    · exact h.ramForm
  · rw [memWrite_ram]; split
    · exact Memory.below_write h.ramBound (ramCell_lt addr) v
    · exact h.ramBound

/-- The form depends on the memories and the ROM size alone. -/
theorem MemoryCanonical.congr {s t : State} (h : MemoryCanonical s) (hram : t.ram = s.ram)
    (hprg : t.prg = s.prg) (hsize : t.prgSize = s.prgSize) : MemoryCanonical t :=
  ⟨hram ▸ h.ramForm, hram ▸ h.ramBound, hprg ▸ h.prgForm, by
    rw [hprg, hsize]; exact h.prgBound⟩

/-! The updates that touch no memory keep the form. -/

theorem MemoryCanonical.setA {s : State} (h : MemoryCanonical s) (v : Byte) :
    MemoryCanonical (s.setA v) := ⟨h.ramForm, h.ramBound, h.prgForm, h.prgBound⟩
theorem MemoryCanonical.setX {s : State} (h : MemoryCanonical s) (v : Byte) :
    MemoryCanonical (s.setX v) := ⟨h.ramForm, h.ramBound, h.prgForm, h.prgBound⟩
theorem MemoryCanonical.setSp {s : State} (h : MemoryCanonical s) (v : Byte) :
    MemoryCanonical (s.setSp v) := ⟨h.ramForm, h.ramBound, h.prgForm, h.prgBound⟩
theorem MemoryCanonical.setPc {s : State} (h : MemoryCanonical s) (v : Word) :
    MemoryCanonical (s.setPc v) := ⟨h.ramForm, h.ramBound, h.prgForm, h.prgBound⟩
theorem MemoryCanonical.setP {s : State} (h : MemoryCanonical s) (v : Status) :
    MemoryCanonical (s.setP v) := ⟨h.ramForm, h.ramBound, h.prgForm, h.prgBound⟩
theorem MemoryCanonical.setZN {s : State} (h : MemoryCanonical s) (v : Byte) :
    MemoryCanonical (s.setZN v) := ⟨h.ramForm, h.ramBound, h.prgForm, h.prgBound⟩
theorem MemoryCanonical.setPhase {s : State} (h : MemoryCanonical s) (ph : Phase) :
    MemoryCanonical (s.setPhase ph) := ⟨h.ramForm, h.ramBound, h.prgForm, h.prgBound⟩
theorem MemoryCanonical.setReport {s : State} (h : MemoryCanonical s) (r : Option Report) :
    MemoryCanonical (s.setReport r) := ⟨h.ramForm, h.ramBound, h.prgForm, h.prgBound⟩
theorem MemoryCanonical.logBus {s : State} (h : MemoryCanonical s) (e : BusTxn) :
    MemoryCanonical (s.logBus e) := ⟨h.ramForm, h.ramBound, h.prgForm, h.prgBound⟩
theorem MemoryCanonical.begin {s : State} (h : MemoryCanonical s) :
    MemoryCanonical (s.begin) := ⟨h.ramForm, h.ramBound, h.prgForm, h.prgBound⟩

/-! ## Fetch -/

@[simp] theorem fetch8_fst : (fetch8 s).1 = s.peek s.pc := rfl
@[simp] theorem fetch8_snd :
    (fetch8 s).2 = (s.logBus (.read s.pc (s.peek s.pc))).setPc (s.pc + 1) := rfl

/-- Neither the reads of a fetch nor the bytes at an address depend on anything but memory. -/
theorem fetchReads_congr {s t : State} (h : ∀ a, t.peek a = s.peek a) (n : Nat) :
    ∀ a : Word, t.fetchReads a n = s.fetchReads a n := by
  induction n with
  | zero => intro a; rfl
  | succ n ih => intro a; simp only [State.fetchReads, ih, h]

theorem bytesAt_congr {s t : State} (h : ∀ a, t.peek a = s.peek a) (bytes : List Byte) :
    ∀ a : Word, t.BytesAt a bytes ↔ s.BytesAt a bytes := by
  induction bytes with
  | nil => intro a; exact Iff.rfl
  | cons b bs ih => intro a; simp only [State.BytesAt, ih, h]

/-- `n` fetches advance PC by `n` modulo 65536, make `n` reads and change nothing else. -/
theorem fetchBytes_snd (n : Nat) : ∀ s : State, (fetchBytes n s).2 =
    { s with pc := s.pc + BitVec.ofNat 16 n, bus := s.bus ++ s.fetchReads s.pc n } := by
  induction n with
  | zero => intro s; simp [fetchBytes, State.fetchReads]
  | succ n ih =>
    intro s
    have hreads := fetchReads_congr (s := s) (t := (fetch8 s).2) (fun _ => rfl) n
    simp only [fetchBytes, ih, hreads]
    simp only [fetch8_snd, State.setPc, State.logBus, State.fetchReads, BitVec.ofNat_add,
      List.append_assoc, List.singleton_append]
    congr 2
    rw [BitVec.add_assoc, BitVec.add_comm 1 (BitVec.ofNat 16 n)]
    rfl

/-- Fetching where the bytes stand gives the bytes. -/
theorem fetchBytes_fst (bytes : List Byte) :
    ∀ s : State, s.BytesAt s.pc bytes → (fetchBytes bytes.length s).1 = bytes := by
  induction bytes with
  | nil => intro s _; rfl
  | cons b bs ih =>
    intro s h
    simp only [List.length_cons, fetchBytes, fetch8_fst, h.1]
    rw [ih (fetch8 s).2 ((bytesAt_congr (s := s) (t := (fetch8 s).2) (fun _ => rfl) bs _).mpr h.2)]

/-! ## The stack -/

theorem stackAddr_toNat (sp : Byte) : (stackAddr sp).toNat = 0x100 + sp.toNat := by
  have h := sp.isLt
  have hbase : BitVec.toNat (0x0100 : Word) = 0x100 := rfl
  simp only [stackAddr, BitVec.toNat_add, BitVec.toNat_setWidth, hbase]
  omega

/-- Two stack cells are one RAM cell only if the offsets are equal (R27, R60). -/
theorem sameRamCell_stack (p q : Byte) : SameRamCell (stackAddr p) (stackAddr q) ↔ q = p := by
  have hp := p.isLt
  have hq := q.isLt
  rw [SameRamCell, stackAddr_toNat, stackAddr_toNat, ← BitVec.toNat_inj]
  constructor
  · rintro ⟨_, _, h⟩; omega
  · intro h; exact ⟨by omega, by omega, by rw [h]⟩

@[simp] theorem push8_toRegisters (v : Byte) :
    (push8 v s).toRegisters = { s.toRegisters with sp := s.sp - 1 } := by
  simp [push8]
@[simp] theorem push8_prg (v : Byte) : (push8 v s).prg = s.prg := by simp [push8]
@[simp] theorem push8_prgSize (v : Byte) : (push8 v s).prgSize = s.prgSize := by simp [push8]
@[simp] theorem push8_phase (v : Byte) : (push8 v s).phase = s.phase := by simp [push8]
@[simp] theorem push8_report (v : Byte) : (push8 v s).report = s.report := by simp [push8]
@[simp] theorem push8_bus (v : Byte) :
    (push8 v s).bus = s.bus ++ [.write (stackAddr s.sp) v] := by simp [push8]
theorem push8_peek (v : Byte) (a : Word) :
    (push8 v s).peek a = afterStore s.peek (stackAddr s.sp) v a := by
  simp [push8, memWrite_peek]
theorem push8_canonical {s : State} (h : MemoryCanonical s) (v : Byte) :
    MemoryCanonical (push8 v s) :=
  (memWrite_canonical h _ v).congr rfl rfl rfl

@[simp] theorem pop8_fst : (pop8 s).1 = s.peek (stackAddr (s.sp + 1)) := rfl
@[simp] theorem pop8_snd : (pop8 s).2 =
    (s.setSp (s.sp + 1)).logBus
      (.read (stackAddr (s.sp + 1)) (s.peek (stackAddr (s.sp + 1)))) := rfl

@[simp] theorem push16_toRegisters (w : Word) :
    (push16 w s).toRegisters = { s.toRegisters with sp := s.sp - 1 - 1 } := by
  simp [push16]
@[simp] theorem push16_prg (w : Word) : (push16 w s).prg = s.prg := by simp [push16]
@[simp] theorem push16_prgSize (w : Word) : (push16 w s).prgSize = s.prgSize := by simp [push16]
@[simp] theorem push16_phase (w : Word) : (push16 w s).phase = s.phase := by simp [push16]
@[simp] theorem push16_report (w : Word) : (push16 w s).report = s.report := by simp [push16]
theorem push8_sp (v : Byte) : (push8 v s).sp = s.sp - 1 :=
  congrArg Registers.sp (push8_toRegisters s v)
theorem push16_sp (w : Word) : (push16 w s).sp = s.sp - 1 - 1 :=
  congrArg Registers.sp (push16_toRegisters s w)
@[simp] theorem push16_bus (w : Word) : (push16 w s).bus =
    s.bus ++ [.write (stackAddr s.sp) (hiByte w), .write (stackAddr (s.sp - 1)) (loByte w)] := by
  simp [push16]
theorem push16_peek (w : Word) (a : Word) : (push16 w s).peek a =
    afterStore (afterStore s.peek (stackAddr s.sp) (hiByte w)) (stackAddr (s.sp - 1)) (loByte w) a := by
  have h : (push8 (hiByte w) s).peek = afterStore s.peek (stackAddr s.sp) (hiByte w) :=
    funext fun a => push8_peek s _ a
  rw [push16, push8_peek, push8_sp, h]
theorem push16_canonical {s : State} (h : MemoryCanonical s) (w : Word) :
    MemoryCanonical (push16 w s) :=
  push8_canonical (push8_canonical h _) _

theorem pop16_fst : (pop16 s).1 =
    wordOf (s.peek (stackAddr (s.sp + 1))) (s.peek (stackAddr (s.sp + 1 + 1))) := rfl
theorem pop16_toRegisters :
    (pop16 s).2.toRegisters = { s.toRegisters with sp := s.sp + 1 + 1 } := rfl
theorem pop16_peek (a : Word) : (pop16 s).2.peek a = s.peek a := rfl

/-! ## Loads and stores -/

@[simp] theorem absoluteAddr_eq (addr : Word) : absoluteAddr addr = addr := rfl

@[simp] theorem loadA_toRegisters (v : Byte) :
    (loadA v s).toRegisters = { s.toRegisters with a := v, p := s.p.setZN v } := rfl
@[simp] theorem loadA_peek (v : Byte) (a : Word) : (loadA v s).peek a = s.peek a := rfl
@[simp] theorem loadX_toRegisters (v : Byte) :
    (loadX v s).toRegisters = { s.toRegisters with x := v, p := s.p.setZN v } := rfl
@[simp] theorem loadX_peek (v : Byte) (a : Word) : (loadX v s).peek a = s.peek a := rfl

theorem zeroPageAddr_toNat (zp : Byte) : (zeroPageAddr zp).toNat = zp.toNat := by
  have h := zp.isLt
  simp only [zeroPageAddr, BitVec.toNat_setWidth]
  omega

end Sys2Proof.Machine
end

