-- ==== Sys2Proof/Laws/PerInstr.lean ====
section
/-! SUPPORT. The per-instruction family `EncodingShape`: what the opcode map says of each
instruction's encoding. -/

namespace Sys2Proof.Laws.EncodingShape

/-- The first byte of the encoding has a row of the opcode map, the row's format is the
instruction's, and the encoding is as long as the format says (R80, R87). -/
def Statement (i : Instr) : Prop :=
  ∃ row, lookupOpcode ((encode i).headD 0) = some row ∧ row.format = i.format ∧
    (encode i).length = i.format.length

theorem brk : Statement .brk := ⟨_, rfl, rfl, rfl⟩
theorem nop : Statement .nop := ⟨_, rfl, rfl, rfl⟩
theorem ldaImm (imm : Byte) : Statement (.ldaImm imm) := ⟨_, rfl, rfl, rfl⟩
theorem ldaZp (zp : Byte) : Statement (.ldaZp zp) := ⟨_, rfl, rfl, rfl⟩
theorem ldaAbs (addr : Word) : Statement (.ldaAbs addr) := ⟨_, rfl, rfl, rfl⟩
theorem staZp (zp : Byte) : Statement (.staZp zp) := ⟨_, rfl, rfl, rfl⟩
theorem staAbs (addr : Word) : Statement (.staAbs addr) := ⟨_, rfl, rfl, rfl⟩
theorem ldxImm (imm : Byte) : Statement (.ldxImm imm) := ⟨_, rfl, rfl, rfl⟩
theorem inx : Statement .inx := ⟨_, rfl, rfl, rfl⟩
theorem dex : Statement .dex := ⟨_, rfl, rfl, rfl⟩
theorem jmpAbs (target : Word) : Statement (.jmpAbs target) := ⟨_, rfl, rfl, rfl⟩
theorem jsrAbs (target : Word) : Statement (.jsrAbs target) := ⟨_, rfl, rfl, rfl⟩
theorem rts : Statement .rts := ⟨_, rfl, rfl, rfl⟩
theorem sei : Statement .sei := ⟨_, rfl, rfl, rfl⟩
theorem cld : Statement .cld := ⟨_, rfl, rfl, rfl⟩
theorem txs : Statement .txs := ⟨_, rfl, rfl, rfl⟩
theorem tsx : Statement .tsx := ⟨_, rfl, rfl, rfl⟩
theorem pha : Statement .pha := ⟨_, rfl, rfl, rfl⟩
theorem pla : Statement .pla := ⟨_, rfl, rfl, rfl⟩
theorem adcImm (imm : Byte) : Statement (.adcImm imm) := ⟨_, rfl, rfl, rfl⟩

end Sys2Proof.Laws.EncodingShape
end

