-- ==== Sys2Proof/Laws/Step.lean ====
section
/-! SUPPORT. What a step can do, said once: it is refused, it executes a fetched instruction, or it
raises UnsupportedOpcode. Reset keeps the memories canonical. -/

namespace Sys2Proof.Machine

variable {s t : State}

theorem step_running (h : s.Running) : step s =
    match fetchInstruction s.begin with
    | .instr i u => exec i u
    | .unsupported op u => raiseUnsupportedOpcode op u := by
  unfold step
  rw [h]
  rfl

/-- Fetching where a supported opcode and its operand bytes stand gives the instruction they decode to,
with PC past them and the fetch's reads on the bus. -/
theorem fetchInstruction_instr {row : OpcodeRow} {operands rest : List Byte} {i : Instr}
    (hrow : lookupOpcode (s.peek s.pc) = some row)
    (hlen : operands.length = row.format.operandBytes) (hat : s.BytesAt (s.pc + 1) operands)
    (hdec : decode (s.peek s.pc :: operands) = .ok i rest) :
    fetchInstruction s = .instr i { s with
      pc := s.pc + BitVec.ofNat 16 (operands.length + 1)
      bus := s.bus ++ s.fetchReads s.pc (operands.length + 1) } := by
  have hsnd := fetchBytes_snd (operands.length + 1) s
  have hfst := fetchBytes_fst operands (fetch8 s).2 ((bytesAt_congr (s := s) (t := (fetch8 s).2) (fun _ => rfl) _ _).mpr hat)
  simp only [fetchBytes] at hsnd
  simp only [fetchInstruction, fetch8_fst, hrow, ← hlen, hfst, hdec, hsnd]

/-- Fetching where an opcode without a decode entry stands consumes that byte alone (R88, R201). -/
theorem fetchInstruction_unsupported (hrow : lookupOpcode (s.peek s.pc) = none) :
    fetchInstruction s = .unsupported (s.peek s.pc) (fetch8 s).2 := by
  simp only [fetchInstruction, fetch8_fst, hrow]

/-- A step answers a next state only by executing the fetched instruction of a running machine. -/
theorem step_next_cases (h : step s = .next t) :
    s.Running ∧ ∃ i u, fetchInstruction s.begin = .instr i u ∧ exec i u = .next t := by
  unfold step at h
  cases hp : s.phase with
  | notReset => rw [hp] at h; cases h
  | faulted => rw [hp] at h; cases h
  | running =>
    rw [hp] at h
    refine ⟨hp, ?_⟩
    cases hf : fetchInstruction s.begin with
    | instr i u => rw [hf] at h; exact ⟨i, u, rfl, h⟩
    | unsupported op u => rw [hf] at h; cases h

/-- Reset, field by field (R240). -/
theorem applyReset_toRegisters (s : State) : (applyReset s).toRegisters =
    { a := s.a, x := s.x, y := s.y, sp := 0xFD, pc := wordOf (s.peek 0xFFFC) (s.peek 0xFFFD),
      p := Status.afterReset } := rfl

@[simp] theorem applyReset_peek (s : State) (addr : Word) : (applyReset s).peek addr = s.peek addr :=
  rfl

theorem applyReset_canonical (h : MemoryCanonical s) : MemoryCanonical (applyReset s) :=
  h.congr rfl rfl rfl

/-- The memories of the reset state are canonical. -/
theorem reset_ram_wf : State.reset.ram.wf ∧ State.reset.prg.wf := ⟨Memory.wf_nil, Memory.wf_nil⟩

end Sys2Proof.Machine
end

