-- ==== Sys2Proof/WellFormed.lean ====
section
/-! DEFINITION. Which instruction terms and which PRG buffers are well formed. The types already
bound every operand to its width, and 30_encoding.md R90 makes every operand byte legal, so no
instruction term is ill formed; a PRG buffer is well formed only at the two sizes of
20_memory.md R55. -/

namespace Sys2Proof

/-- Every instruction term is well formed: "any byte value 0x00 to 0xFF is a legal imm8, zp8, lo or
hi" (R90), and an operand's type is its width. -/
def Instr.wf : Instr → Bool
  | .brk => true
  | .nop => true
  | .ldaImm _ => true
  | .ldaZp _ => true
  | .ldaAbs _ => true
  | .staZp _ => true
  | .staAbs _ => true
  | .ldxImm _ => true
  | .inx => true
  | .dex => true
  | .jmpAbs _ => true
  | .jsrAbs _ => true
  | .rts => true
  | .sei => true
  | .cld => true
  | .txs => true
  | .tsx => true
  | .pha => true
  | .pla => true
  | .adcImm _ => true

/-- The sizes of a PRG buffer for which a run is defined (R55, D10). -/
def prgLengthOk (n : Nat) : Bool := (Config.PrgSize.ofLength? n).isSome

end Sys2Proof
end

