-- ==== Sys2Proof/Tests/Slice0.lean ====
section
/-! SUPPORT. Tests and witnesses. Expected results come from the spec: V<n> and S<n> are the vectors of
95_test_vectors.md, other sources are named. A `witness_` theorem shows a concrete state and operands
that meet all hypotheses of the statement it names. -/

namespace Sys2Proof.Tests

open Sys2Proof.Machine

/-- A running machine with the given registers (Y is 0x5A throughout) and memories. -/
def machine (pc : Word) (a x sp p : Byte) (ram prg : Memory) : State :=
  { State.reset with
    a := a, x := x, y := 0x5A, sp := sp, pc := pc, p := Status.ofByte p, ram := ram, prg := prg }

/-- The same with the bytes of one instruction at 0x8000 and nothing else in memory. -/
def rom (a x sp p : Byte) (bytes : List Byte) : State :=
  machine 0x8000 a x sp p [] (Memory.ofBytesFrom 0 bytes)

/-- What the environment sees of a completed step: the snapshot and the answer. -/
def seen (o : Host.Outcome State Fault Refusal) : Option (Snapshot × Option Report) :=
  match o with
  | .next t => some (t.snapshot, t.report)
  | .fault _ => none
  | .refused _ => none

/-- The bytes at some addresses after a completed step. -/
def bytesAfter (o : Host.Outcome State Fault Refusal) (addrs : List Word) : List Byte :=
  match o with
  | .next t => addrs.map t.peek
  | .fault _ => []
  | .refused _ => []

/-- What the environment sees of a fault: the opcode byte and the snapshot left behind. -/
def faulted (o : Host.Outcome State Fault Refusal) : Option (Byte × Snapshot) :=
  match o with
  | .next _ => none
  | .fault (.unsupportedOpcode op left) => some (op, left.snapshot)
  | .refused _ => none

/-! ## Well-formedness: the one check there is refuses what is ill formed (R55, D10); no instruction
term is ill formed (R90). -/

theorem test_wellformed_prg_empty : prgLengthOk 0 = false := by decide
theorem test_wellformed_prg_48k : prgLengthOk 49152 = false := by decide
theorem test_wellformed_prg_sizes : prgLengthOk 16384 = true ∧ prgLengthOk 32768 = true := by decide

/-! ## Decoding: each opcode written out bit by bit from the map of R87. -/

theorem test_decode_brk : decode [0b00000000] = .ok .brk [] := by decide
theorem test_decode_nop : decode [0b11101010] = .ok .nop [] := by decide
theorem test_decode_lda_imm : decode [0b10101001, 0x05] = .ok (.ldaImm 0x05) [] := by decide
theorem test_decode_lda_zp : decode [0b10100101, 0x10] = .ok (.ldaZp 0x10) [] := by decide
theorem test_decode_lda_abs : decode [0b10101101, 0x34, 0x12] = .ok (.ldaAbs 0x1234) [] := by decide
theorem test_decode_sta_zp : decode [0b10000101, 0xFF] = .ok (.staZp 0xFF) [] := by decide
theorem test_decode_sta_abs : decode [0b10001101, 0x00, 0x20] = .ok (.staAbs 0x2000) [] := by decide
theorem test_decode_ldx_imm : decode [0b10100010, 0x7F] = .ok (.ldxImm 0x7F) [] := by decide
theorem test_decode_inx : decode [0b11101000] = .ok .inx [] := by decide
theorem test_decode_dex : decode [0b11001010] = .ok .dex [] := by decide
theorem test_decode_jmp_abs : decode [0b01001100, 0x00, 0x18] = .ok (.jmpAbs 0x1800) [] := by decide
theorem test_decode_jsr_abs : decode [0b00100000, 0x0C, 0x80] = .ok (.jsrAbs 0x800C) [] := by decide
theorem test_decode_rts : decode [0b01100000] = .ok .rts [] := by decide
theorem test_decode_sei : decode [0b01111000] = .ok .sei [] := by decide
theorem test_decode_cld : decode [0b11011000] = .ok .cld [] := by decide
theorem test_decode_txs : decode [0b10011010] = .ok .txs [] := by decide
theorem test_decode_tsx : decode [0b10111010] = .ok .tsx [] := by decide
theorem test_decode_pha : decode [0b01001000] = .ok .pha [] := by decide
theorem test_decode_pla : decode [0b01101000] = .ok .pla [] := by decide
theorem test_decode_adc_imm : decode [0b01101001, 0xFB] = .ok (.adcImm 0xFB) [] := by decide
theorem test_decode_rejects_ff : decode [0xFF] = .unsupportedOpcode 0xFF := by decide
theorem test_decode_truncated : decode [0xAD, 0x34] = .truncated := by decide
theorem test_decode_table_word : decodeTableWord 8 0xA5 = some (.ldaZp 0x00) := by decide

/-! ## One step each -/

/-- V1 at 8000. -/
theorem test_brk_v1 : seen (step (rom 0x00 0x00 0xFD 0x27 [0x00])) =
    some (⟨0x00, 0x00, 0x5A, 0xFD, 0x8001, 0x37⟩, some (.halt 7)) := by decide

/-- V3: PC wraps. -/
theorem test_brk_v3 : seen (step (machine 0xFFFF 0x00 0x00 0xFD 0x24 [] [])) =
    some (⟨0x00, 0x00, 0x5A, 0xFD, 0x0000, 0x34⟩, some (.halt 7)) := by decide

/-- V5 at 8000. -/
theorem test_nop_v5 : seen (step (rom 0x12 0x34 0xFD 0xA5 [0xEA])) =
    some (⟨0x12, 0x34, 0x5A, 0xFD, 0x8001, 0xA5⟩, some (.done 2)) := by decide

/-- V12. -/
theorem test_lda_imm_v12 : seen (step (rom 0x77 0x00 0xFD 0x26 [0xA9, 0x80])) =
    some (⟨0x80, 0x00, 0x5A, 0xFD, 0x8002, 0xA4⟩, some (.done 2)) := by decide

/-- V13. -/
theorem test_lda_imm_v13 : seen (step (rom 0x00 0x00 0xFD 0xA5 [0xA9, 0x7F])) =
    some (⟨0x7F, 0x00, 0x5A, 0xFD, 0x8002, 0x25⟩, some (.done 2)) := by decide

/-- V15. -/
theorem test_lda_zp_v15 : seen (step (machine 0x8000 0x00 0x00 0xFD 0x24 [(0x00FF, 0x80)] [(0x0000, 0xA5), (0x0001, 0xFF)])) =
    some (⟨0x80, 0x00, 0x5A, 0xFD, 0x8002, 0xA4⟩, some (.done 3)) := by decide

/-- V16: a cell never written. -/
theorem test_lda_zp_v16 : seen (step (rom 0x55 0x00 0xFD 0x24 [0xA5, 0x20])) =
    some (⟨0x00, 0x00, 0x5A, 0xFD, 0x8002, 0x26⟩, some (.done 3)) := by decide

/-- V19: a RAM mirror. -/
theorem test_lda_abs_v19 : seen (step (machine 0x8000 0x00 0x00 0xFD 0x24 [(0x0010, 0xC3)] [(0x0000, 0xAD), (0x0001, 0x10), (0x0002, 0x18)])) =
    some (⟨0xC3, 0x00, 0x5A, 0xFD, 0x8003, 0xA4⟩, some (.done 4)) := by decide

/-- V23: the instruction lies across FFFF and 0000. -/
theorem test_lda_abs_v23 : seen (step (machine 0xFFFF 0x55 0x00 0xFD 0x24 [(0x0000, 0x10), (0x0010, 0x99)] [(0x7FFF, 0xAD)])) =
    some (⟨0x99, 0x00, 0x5A, 0xFD, 0x0002, 0xA4⟩, some (.done 4)) := by decide

/-- V27. -/
theorem test_sta_zp_v27 : seen (step (rom 0xAA 0x00 0xFD 0xA5 [0x85, 0xFF])) =
    some (⟨0xAA, 0x00, 0x5A, 0xFD, 0x8002, 0xA5⟩, some (.done 3)) := by decide

/-- V26: the byte is seen at the mirrors. -/
theorem test_sta_zp_v26 : bytesAfter (step (rom 0x05 0x00 0xFD 0x24 [0x85, 0x10]))
    [0x0010, 0x0810, 0x1810, 0x0011] = [0x05, 0x05, 0x05, 0x00] := by decide

/-- V31: the last mirror byte. -/
theorem test_sta_abs_v31 : bytesAfter (step (rom 0x5A 0x00 0xFD 0x24 [0x8D, 0xFF, 0x1F]))
    [0x07FF, 0x1FFF, 0x0000] = [0x5A, 0x5A, 0x00] := by decide

/-- V29 and V30: a store to the empty window or to ROM is discarded. -/
theorem test_sta_abs_v29 : bytesAfter (step (rom 0x05 0x00 0xFD 0x24 [0x8D, 0x00, 0x20]))
      [0x2000] = [0x00] ∧
    bytesAfter (step (rom 0x05 0x00 0xFD 0x24 [0x8D, 0x00, 0x80])) [0x8000] = [0x8D] := by decide

/-- V24. -/
theorem test_ldx_imm_v24 : seen (step (rom 0x00 0x00 0xFD 0x24 [0xA2, 0xFF])) =
    some (⟨0x00, 0xFF, 0x5A, 0xFD, 0x8002, 0xA4⟩, some (.done 2)) := by decide

/-- V25. -/
theorem test_ldx_imm_v25 : seen (step (rom 0x00 0x33 0xFD 0xA4 [0xA2, 0x00])) =
    some (⟨0x00, 0x00, 0x5A, 0xFD, 0x8002, 0x26⟩, some (.done 2)) := by decide

/-- V40. -/
theorem test_inx_v40 : seen (step (rom 0x00 0xFF 0xFD 0xA4 [0xE8])) =
    some (⟨0x00, 0x00, 0x5A, 0xFD, 0x8001, 0x26⟩, some (.done 2)) := by decide

/-- V42: carry untouched. -/
theorem test_inx_v42 : seen (step (rom 0x00 0x00 0xFD 0x27 [0xE8])) =
    some (⟨0x00, 0x01, 0x5A, 0xFD, 0x8001, 0x25⟩, some (.done 2)) := by decide

/-- V44. -/
theorem test_dex_v44 : seen (step (rom 0x00 0x00 0xFD 0x26 [0xCA])) =
    some (⟨0x00, 0xFF, 0x5A, 0xFD, 0x8001, 0xA4⟩, some (.done 2)) := by decide

/-- V46: carry untouched. -/
theorem test_dex_v46 : seen (step (rom 0x00 0x80 0xFD 0xA5 [0xCA])) =
    some (⟨0x00, 0x7F, 0x5A, 0xFD, 0x8001, 0x25⟩, some (.done 2)) := by decide

/-- V52: the high byte is fetched at 0000. -/
theorem test_jmp_v52 : seen (step (machine 0xFFFE 0x00 0x00 0xFD 0x24 [(0x0000, 0x12)] [(0x7FFE, 0x4C), (0x7FFF, 0x34)])) =
    some (⟨0x00, 0x00, 0x5A, 0xFD, 0x1234, 0x24⟩, some (.done 3)) := by decide

/-- V54: the push wraps. -/
theorem test_jsr_v54 : seen (step (rom 0x00 0x00 0x00 0x24 [0x20, 0x00, 0x90])) =
    some (⟨0x00, 0x00, 0x5A, 0xFE, 0x9000, 0x24⟩, some (.done 6)) := by decide

/-- V54: the high byte at 0100 and the low byte at 01FF. -/
theorem test_jsr_v54_stack : bytesAfter (step (rom 0x00 0x00 0x00 0x24 [0x20, 0x00, 0x90]))
    [0x0100, 0x01FF] = [0x80, 0x02] := by decide

/-- V58: the pop wraps and FFFF + 1 wraps. -/
theorem test_rts_v58 : seen (step (machine 0x8000 0x00 0x00 0xFE 0x24 [(0x0100, 0xFF), (0x01FF, 0xFF)] [(0x0000, 0x60)])) =
    some (⟨0x00, 0x00, 0x5A, 0x00, 0x0000, 0x24⟩, some (.done 6)) := by decide

/-- V60. -/
theorem test_rts_v60 : seen (step (machine 0x8000 0x00 0x00 0xFF 0x24 [(0x0100, 0x33), (0x0101, 0x12)] [(0x0000, 0x60)])) =
    some (⟨0x00, 0x00, 0x5A, 0x01, 0x1234, 0x24⟩, some (.done 6)) := by decide

/-- V71. -/
theorem test_sei_v71 : seen (step (rom 0x00 0x00 0xFD 0xA3 [0x78])) =
    some (⟨0x00, 0x00, 0x5A, 0xFD, 0x8001, 0xA7⟩, some (.done 2)) := by decide

/-- V73. -/
theorem test_cld_v73 : seen (step (rom 0x00 0x00 0xFD 0x2D [0xD8])) =
    some (⟨0x00, 0x00, 0x5A, 0xFD, 0x8001, 0x25⟩, some (.done 2)) := by decide

/-- V80: no flags. -/
theorem test_txs_v80 : seen (step (rom 0x00 0xFF 0xFD 0xA4 [0x9A])) =
    some (⟨0x00, 0xFF, 0x5A, 0xFF, 0x8001, 0xA4⟩, some (.done 2)) := by decide

/-- V81: zero, still no flags. -/
theorem test_txs_v81 : seen (step (rom 0x00 0x00 0xFD 0x24 [0x9A])) =
    some (⟨0x00, 0x00, 0x5A, 0x00, 0x8001, 0x24⟩, some (.done 2)) := by decide

/-- V83. -/
theorem test_tsx_v83 : seen (step (rom 0x00 0x11 0x00 0xA4 [0xBA])) =
    some (⟨0x00, 0x00, 0x5A, 0x00, 0x8001, 0x26⟩, some (.done 2)) := by decide

/-- V84. -/
theorem test_tsx_v84 : seen (step (rom 0x00 0x11 0x7F 0xA6 [0xBA])) =
    some (⟨0x00, 0x7F, 0x5A, 0x7F, 0x8001, 0x24⟩, some (.done 2)) := by decide

/-- V86: SP wraps. -/
theorem test_pha_v86 : seen (step (rom 0xAB 0x00 0x00 0x24 [0x48])) =
    some (⟨0xAB, 0x00, 0x5A, 0xFF, 0x8001, 0x24⟩, some (.done 3)) := by decide

/-- V87: the old byte is replaced by zero, at the mirror too. -/
theorem test_pha_v87 : bytesAfter
    (step (machine 0x8000 0x00 0x00 0xFF 0x26 [(0x01FF, 0x77)] [(0x0000, 0x48)]))
    [0x01FF, 0x09FF] = [0x00, 0x00] := by decide

/-- V89: SP wraps. -/
theorem test_pla_v89 : seen (step (machine 0x8000 0x01 0x00 0xFF 0xA4 [] [(0x0000, 0x68)])) =
    some (⟨0x00, 0x00, 0x5A, 0x00, 0x8001, 0x26⟩, some (.done 4)) := by decide

/-- V91. -/
theorem test_pla_v91 : seen (step (machine 0x8000 0x55 0x00 0xFE 0xA6 [(0x01FF, 0x7F)] [(0x0000, 0x68)])) =
    some (⟨0x7F, 0x00, 0x5A, 0xFF, 0x8001, 0x24⟩, some (.done 4)) := by decide

/-- V104: the largest sum. -/
theorem test_adc_v104 : seen (step (rom 0xFF 0x00 0xFD 0x25 [0x69, 0xFF])) =
    some (⟨0xFF, 0x00, 0x5A, 0xFD, 0x8002, 0xA5⟩, some (.done 2)) := by decide

/-- V109: D set, no decimal adjust. -/
theorem test_adc_v109 : seen (step (rom 0x09 0x00 0xFD 0x2C [0x69, 0x09])) =
    some (⟨0x12, 0x00, 0x5A, 0xFD, 0x8002, 0x2C⟩, some (.done 2)) := by decide

/-- V106 and V105, the column `signed_overflow` of P. -/
theorem test_adc_overflow_mode :
    (adcWith .signedOverflow 0x80 (rom 0x80 0x00 0xFD 0x24 [])).p.toByte = 0x67 ∧
    (adcWith .signedOverflow 0x01 (rom 0x7F 0x00 0xFD 0x24 [])).p.toByte = 0xE4 := by decide

/-- V121: 6D is not ADC here; its operand bytes are not fetched. -/
theorem test_fault_v121 : faulted (step (rom 0x00 0x00 0xFD 0x26 [0x6D, 0x00, 0x20])) =
    some (0x6D, ⟨0x00, 0x00, 0x5A, 0xFD, 0x8001, 0x26⟩) := by decide

/-- V123: PC wraps. -/
theorem test_fault_v123 :
    faulted (step (machine 0xFFFF 0x00 0x00 0xFD 0x24 [] [(0x7FFF, 0x02)])) =
    some (0x02, ⟨0x00, 0x00, 0x5A, 0xFD, 0x0000, 0x24⟩) := by decide

/-- S11: reset keeps A, X and Y and loads PC from FFFC and FFFD. -/
theorem test_reset_s11 :
    (applyReset (machine 0x1234 0x77 0x88 0x01 0xDB [] [(0x7FFC, 0x34), (0x7FFD, 0x12)])).snapshot =
    ⟨0x77, 0x88, 0x5A, 0xFD, 0x1234, 0x24⟩ := by decide

/-- S6 and R244: in a 16 KiB ROM the vector bytes are PRG[3FFC] and PRG[3FFD], read at BFFC too. -/
theorem test_small_rom_vector :
    (applyReset { machine 0x0000 0x00 0x00 0x00 0x24 [] [(0x3FFC, 0x05), (0x3FFD, 0x80)] with
      prgSize := .kib16 }).pc = 0x8005 ∧
    ({ machine 0x0000 0x00 0x00 0x00 0x24 [] [(0x3FFC, 0x05)] with
      prgSize := .kib16 } : State).peek 0xBFFC = 0x05 := by decide

/-- The bus column of P2, step 4: JSR reads its three bytes, then writes high and low byte. -/
theorem test_bus_p2_jsr : (match step (machine 0x8005 0x80 0xFF 0xFF 0xA4 []
      [(0x0005, 0x20), (0x0006, 0x0C), (0x0007, 0x80)]) with
    | .next t => t.bus
    | .fault _ => []
    | .refused _ => []) =
    [.read 0x8005 0x20, .read 0x8006 0x0C, .read 0x8007 0x80, .write 0x01FF 0x80,
      .write 0x01FE 0x07] := by decide

/-- S10: too short, and without the magic bytes. -/
theorem test_loader_s10 : loadImage [0x4E, 0x45, 0x53, 0x1A] = none ∧
    loadImage (List.replicate 16 0x00) = none := by decide

/-- R247: a header that announces a trainer and no banks, with no trainer behind it, is too short. -/
theorem test_loader_missing_trainer :
    loadImage [0x4E, 0x45, 0x53, 0x1A, 0, 0, 0x04, 0, 0, 0, 0, 0, 0, 0, 0, 0] = none := by decide

/-- An instruction placed for the first step after reset runs (the host's own question). -/
theorem test_first_step_after_reset : seen (step (State.reset.withFetchWord 16 0x05A9)) =
    some (⟨0x05, 0x00, 0x00, 0xFD, 0x0002, 0x24⟩, some (.done 2)) := by decide

/-- V131: a budget of zero executes nothing. -/
theorem test_run_v131 : runLoop (some 0) 5 0 State.reset = .stopped 0 State.reset := by decide

/-! ## Witnesses of the instruction statements: a running machine with the bytes at PC. -/

/-- A running machine with some bytes at 0x0200 in RAM, two stack bytes and A = 0x11. -/
def ready (bytes : List Byte) : State :=
  machine 0x0200 0x11 0x22 0xFC 0x24
    ((0x01FD, 0x33) :: (0x01FE, 0x44) :: Memory.ofBytesFrom 0x200 bytes) []

theorem witness_brk : (ready [0x00]).Running ∧
    (ready [0x00]).BytesAt (ready [0x00]).pc [0x00] :=
  ⟨rfl, rfl, trivial⟩
theorem witness_nop : (ready [0xEA]).Running ∧
    (ready [0xEA]).BytesAt (ready [0xEA]).pc [0xEA] :=
  ⟨rfl, rfl, trivial⟩
theorem witness_lda_imm : (ready [0xA9, 0x05]).Running ∧
    (ready [0xA9, 0x05]).BytesAt (ready [0xA9, 0x05]).pc [0xA9, 0x05] :=
  ⟨rfl, rfl, rfl, trivial⟩
theorem witness_lda_zp : (ready [0xA5, 0x10]).Running ∧
    (ready [0xA5, 0x10]).BytesAt (ready [0xA5, 0x10]).pc [0xA5, 0x10] :=
  ⟨rfl, rfl, rfl, trivial⟩
theorem witness_lda_abs : (ready [0xAD, 0x10, 0x08]).Running ∧
    (ready [0xAD, 0x10, 0x08]).BytesAt (ready [0xAD, 0x10, 0x08]).pc [0xAD, 0x10, 0x08] :=
  ⟨rfl, rfl, rfl, rfl, trivial⟩
theorem witness_sta_zp : (ready [0x85, 0x10]).Running ∧
    (ready [0x85, 0x10]).BytesAt (ready [0x85, 0x10]).pc [0x85, 0x10] :=
  ⟨rfl, rfl, rfl, trivial⟩
theorem witness_sta_abs : (ready [0x8D, 0x00, 0x08]).Running ∧
    (ready [0x8D, 0x00, 0x08]).BytesAt (ready [0x8D, 0x00, 0x08]).pc [0x8D, 0x00, 0x08] :=
  ⟨rfl, rfl, rfl, rfl, trivial⟩
theorem witness_ldx_imm : (ready [0xA2, 0xFF]).Running ∧
    (ready [0xA2, 0xFF]).BytesAt (ready [0xA2, 0xFF]).pc [0xA2, 0xFF] :=
  ⟨rfl, rfl, rfl, trivial⟩
theorem witness_inx : (ready [0xE8]).Running ∧
    (ready [0xE8]).BytesAt (ready [0xE8]).pc [0xE8] :=
  ⟨rfl, rfl, trivial⟩
theorem witness_dex : (ready [0xCA]).Running ∧
    (ready [0xCA]).BytesAt (ready [0xCA]).pc [0xCA] :=
  ⟨rfl, rfl, trivial⟩
theorem witness_jmp_abs : (ready [0x4C, 0x00, 0x18]).Running ∧
    (ready [0x4C, 0x00, 0x18]).BytesAt (ready [0x4C, 0x00, 0x18]).pc [0x4C, 0x00, 0x18] :=
  ⟨rfl, rfl, rfl, rfl, trivial⟩
theorem witness_jsr_abs : (ready [0x20, 0x0C, 0x80]).Running ∧
    (ready [0x20, 0x0C, 0x80]).BytesAt (ready [0x20, 0x0C, 0x80]).pc [0x20, 0x0C, 0x80] :=
  ⟨rfl, rfl, rfl, rfl, trivial⟩
theorem witness_rts : (ready [0x60]).Running ∧
    (ready [0x60]).BytesAt (ready [0x60]).pc [0x60] :=
  ⟨rfl, rfl, trivial⟩
theorem witness_sei : (ready [0x78]).Running ∧
    (ready [0x78]).BytesAt (ready [0x78]).pc [0x78] :=
  ⟨rfl, rfl, trivial⟩
theorem witness_cld : (ready [0xD8]).Running ∧
    (ready [0xD8]).BytesAt (ready [0xD8]).pc [0xD8] :=
  ⟨rfl, rfl, trivial⟩
theorem witness_txs : (ready [0x9A]).Running ∧
    (ready [0x9A]).BytesAt (ready [0x9A]).pc [0x9A] :=
  ⟨rfl, rfl, trivial⟩
theorem witness_tsx : (ready [0xBA]).Running ∧
    (ready [0xBA]).BytesAt (ready [0xBA]).pc [0xBA] :=
  ⟨rfl, rfl, trivial⟩
theorem witness_pha : (ready [0x48]).Running ∧
    (ready [0x48]).BytesAt (ready [0x48]).pc [0x48] :=
  ⟨rfl, rfl, trivial⟩
theorem witness_pla : (ready [0x68]).Running ∧
    (ready [0x68]).BytesAt (ready [0x68]).pc [0x68] :=
  ⟨rfl, rfl, trivial⟩
theorem witness_adc_imm : (ready [0x69, 0xFB]).Running ∧
    (ready [0x69, 0xFB]).BytesAt (ready [0x69, 0xFB]).pc [0x69, 0xFB] :=
  ⟨rfl, rfl, rfl, trivial⟩

/-! ## Witnesses of the other statements -/

/-- The state after a completed step, or the given state. -/
def nextOr (s : State) (o : Host.Outcome State Fault Refusal) : State :=
  match o with
  | .next t => t
  | .fault _ => s
  | .refused _ => s

theorem witness_DecodedBytesAreTheEncoding : decode [0x85, 0x10, 0xEA] = .ok (.staZp 0x10) [0xEA] := by
  decide

theorem witness_DecoderRejectsExactlyTheOtherOpcodes :
    (0x00 : Byte) ∈ supportedOpcodes ∧ (0xEA : Byte) ∈ supportedOpcodes ∧
    (0x01 : Byte) ∉ supportedOpcodes ∧ (0xFF : Byte) ∉ supportedOpcodes := by decide

theorem witness_StepRunsTheDecodedInstruction :
    let s := ready [0xAD, 0x10, 0x08]
    s.Running ∧ decode [s.peek s.pc, s.peek (s.pc + 1), s.peek (s.pc + 2)] =
      .ok (.ldaAbs 0x0810) [] := by decide

/-- One word, and PC at both sides of the edge of the window: kept at 1FFD, moved at 1FFE and 7FFF. -/
theorem witness_PlacedWordIsTheNextInstruction :
    decodeTableWord 8 0xA9 = some (.ldaImm 0x00) ∧
    (State.reset.setPc 0x1FFD).fetchHome = 0x1FFD ∧ (State.reset.setPc 0x1FFE).fetchHome = 0x0000 ∧
    (State.reset.setPc 0x7FFF).fetchHome = 0x0000 ∧
    (State.reset.setPc 0x8000).fetchHome = 0x8000 := by decide

theorem witness_StepCompletesExactlyOnSupportedOpcodes :
    ((ready [0xEA]).Running ∧ (ready [0xEA]).peek (ready [0xEA]).pc ∈ supportedOpcodes) ∧
    ((ready [0xFF]).Running ∧ (ready [0xFF]).peek (ready [0xFF]).pc ∉ supportedOpcodes) := by decide

theorem witness_UnsupportedOpcodeLeavesOnlyPcAdvanced :
    (ready [0x6D]).Running ∧ (ready [0x6D]).peek (ready [0x6D]).pc ∉ supportedOpcodes := by decide

theorem witness_StepIsRefusedUntilReset :
    (∃ left, step (ready [0xFF]) = .fault (.unsupportedOpcode 0xFF left)) ∧
    ((ready []).setPhase .notReset).phase = .notReset := ⟨⟨_, rfl⟩, rfl⟩

/-- The JSR at 0x0200 to 0x0300, where RTS stands. -/
def calling : State :=
  machine 0x0200 0x11 0x22 0xFD 0x24
    [(0x0200, 0x20), (0x0202, 0x03), (0x0300, 0x60)] []

theorem witness_JsrThenRtsReturnsBehindTheJsr :
    let t := nextOr calling (step calling)
    calling.Running ∧ calling.BytesAt calling.pc [0x20, 0x00, 0x03] ∧ step calling = .next t ∧
      t.Running ∧ t.BytesAt t.pc [0x60] :=
  ⟨rfl, ⟨rfl, rfl, rfl, trivial⟩, rfl, rfl, ⟨rfl, trivial⟩⟩

/-- A completed step, for the statements about every completed step: NOP writes no register, no flag and
no memory, so that every clause of the writers' statements applies; BRK, SEI and CLD meet the rest. -/
theorem witness_completed_steps :
    (∃ t, step (ready [0xEA]) = .next t) ∧ (∃ t, step (ready [0x00]) = .next t) ∧
    (∃ t, step (ready [0x78]) = .next t) ∧ (∃ t, step (ready [0xD8]) = .next t) ∧
    (ready [0x00]).peek (ready [0x00]).pc = 0x00 ∧ (ready [0xEA]).peek (ready [0xEA]).pc = 0xEA :=
  ⟨⟨_, rfl⟩, ⟨_, rfl⟩, ⟨_, rfl⟩, ⟨_, rfl⟩, rfl, rfl⟩

theorem witness_HaltIsReportedExactlyByBrk : ∃ t, step (ready [0x00]) = .next t :=
  witness_completed_steps.2.1

theorem witness_RegistersHaveOnlyTheirWriters : (∃ t, step (ready [0xEA]) = .next t) ∧
    (0xEA : Byte) ∉ ([0xA9, 0xA5, 0xAD, 0x68, 0x69, 0xA2, 0xE8, 0xCA, 0xBA, 0x9A, 0x48, 0x20, 0x60] :
      List Byte) := ⟨⟨_, rfl⟩, by decide⟩

theorem witness_FlagsHaveOnlyTheirWriters : (∃ t, step (ready [0xEA]) = .next t) ∧
    (0xEA : Byte) ∉ ([0xA9, 0xA5, 0xAD, 0xA2, 0xE8, 0xCA, 0xBA, 0x68, 0x69] : List Byte) :=
  ⟨⟨_, rfl⟩, by decide⟩

theorem witness_MemoryHasOnlyItsWriters : (∃ t, step (ready [0xEA]) = .next t) ∧
    (0xEA : Byte) ∉ ([0x85, 0x8D, 0x48, 0x20] : List Byte) ∧
    0x2000 ≤ (0x2000 : Word).toNat ∧ 0x2000 ≤ (0xFFFF : Word).toNat :=
  ⟨⟨_, rfl⟩, by decide, by decide, by decide⟩

theorem witness_StoreToRomIsDiscarded :
    0x8000 ≤ (0x8000 : Word).toNat ∧ 0x8000 ≤ (0xFFFF : Word).toNat := by decide

theorem witness_EmptyWindowReadsZero :
    (0x2000 ≤ (0x2000 : Word).toNat ∧ (0x2000 : Word).toNat < 0x8000) ∧
    (0x2000 ≤ (0x7FFF : Word).toNat ∧ (0x7FFF : Word).toNat < 0x8000) := by decide

theorem witness_RamIsMirrored :
    (0x0000 : Word).toNat < 0x2000 ∧ (0x1FFF : Word).toNat < 0x2000 := by decide

theorem witness_SmallRomIsMirrored :
    ({ State.reset with prgSize := .kib16 } : State).prgSize = .kib16 ∧ 0 < 0x4000 ∧
    0x3FFF < 0x4000 := by decide

/-- V32: the store overwrites the next opcode. -/
theorem witness_StoredCodeIsFetchedNext :
    let s := ready [0x8D, 0x03, 0x02]
    s.Running ∧ s.BytesAt s.pc [0x8D, 0x03, 0x02] ∧ SameRamCell (absWord 0x03 0x02) (s.pc + 3) :=
  ⟨rfl, ⟨rfl, rfl, rfl, trivial⟩, by decide⟩

theorem witness_StepsReportTheirCycleCost :
    ((ready [0x00]).Running ∧ (ready [0x00]).peek (ready [0x00]).pc = 0x00) ∧
    (ready [0x69]).peek (ready [0x69]).pc = 0x69 ∧ (ready [0x48]).peek (ready [0x48]).pc = 0x48 ∧
    (ready [0x68]).peek (ready [0x68]).pc = 0x68 ∧ (ready [0x60]).peek (ready [0x60]).pc = 0x60 ∧
    ∃ left, step (ready [0xFF]) = .fault (.unsupportedOpcode 0xFF left) :=
  ⟨⟨rfl, rfl⟩, rfl, rfl, rfl, rfl, ⟨_, rfl⟩⟩

theorem witness_StepsMakeExactlyTheseBusTransactions :
    (ready [0xAD, 0x10, 0x08]).Running ∧
    (ready [0xAD, 0x10, 0x08]).BytesAt (ready [0xAD, 0x10, 0x08]).pc (encode (.ldaAbs 0x0810)) :=
  ⟨rfl, rfl, rfl, rfl, trivial⟩

theorem witness_StepKeepsMemoryCanonical : MemoryCanonical (ready [0x48]) ∧
    ∃ t, step (ready [0x48]) = .next t := by
  refine ⟨⟨?_, ?_, ?_, ?_⟩, _, rfl⟩ <;> decide

theorem witness_StepKeepsStatusReachable : StatusReachable (ready [0x69, 0xEF]).p ∧
    ∃ t, step (ready [0x69, 0xEF]) = .next t :=
  ⟨⟨rfl, rfl, rfl, by decide⟩, _, rfl⟩

theorem witness_BootMeetsTheInvariants :
    ∃ s, boot (List.replicate 16384 0x00) 0x77 0x88 0x99 = .next s := by
  unfold boot construct
  rw [List.length_replicate]
  exact ⟨_, rfl⟩

theorem witness_CanonicalMemoriesThatReadAlikeAreEqual :
    Memory.wf [(0x0010, 0x05), (0x07FF, 0x5A)] := by decide

theorem witness_SnapshotShowsTheStatusByte : StatusReachable State.reset.p :=
  ⟨rfl, rfl, rfl, by decide⟩

theorem witness_BootRunsTheRomAtItsVector : (List.replicate 16384 (0x00 : Byte)).length = 16384 ∧
    (List.replicate 32768 (0x00 : Byte)).length = 32768 ∧
    (0x0000 : Word).toNat < 0x2000 ∧ (0x1FFF : Word).toNat < 0x2000 ∧
    0x8000 ≤ (0x8000 : Word).toNat ∧ 0x8000 ≤ (0xFFFF : Word).toNat :=
  ⟨List.length_replicate, List.length_replicate, by decide, by decide, by decide, by decide⟩

theorem witness_BootRefusesOtherRomSizes :
    ([] : List Byte).length ≠ 16384 ∧ ([] : List Byte).length ≠ 32768 := by decide

theorem witness_LoaderTakesPrgThenChr :
    (([] : List Byte).length < 16 ∨
      ([] : List Byte).take 4 ≠ [0x4E, 0x45, 0x53, 0x1A]) ∧
    (List.replicate 9 (0x00 : Byte)).length = 9 ∧
    ([] : List Byte).length = (if (0x00 : Byte).getLsbD 2 then 512 else 0) ∧
    (List.replicate 512 (0x00 : Byte)).length = (if (0x04 : Byte).getLsbD 2 then 512 else 0) ∧
    (List.replicate 511 (0x00 : Byte)).length <
      (if (0x04 : Byte).getLsbD 2 then 512 else 0) + (0x00 : Byte).toNat * 16384 +
        (0x00 : Byte).toNat * 8192 :=
  ⟨.inl (by decide), rfl, rfl, List.length_replicate, by rw [List.length_replicate]; decide⟩

theorem witness_RunEndsWithinItsBudget : (ready [0xEA]).Running := rfl

theorem witness_RunHaltsAfterOneBrk :
    (ready [0x00]).Running ∧ (ready [0x00]).peek (ready [0x00]).pc = 0x00 ∧
    budgetSpent none 0 = false ∧ budgetSpent (some 1) 0 = false ∧ budgetSpent (some 1) 1 = true := by
  decide

theorem witness_RunEndsWhereItsStepsLead :
    (∃ t, runLoop none 1 0 (ready [0x00]) = .halted 1 t) ∧
    ∃ t, runLoop (some 1) 1 0 (ready [0xEA]) = .stopped 1 t := ⟨⟨_, rfl⟩, ⟨_, rfl⟩⟩

end Sys2Proof.Tests
end

section
/-! PROOFS. The stack words of 00_scope.md R13 and R14: where a pushed word stands, what Pop16 reads, and
that the two are inverse. -/

namespace Sys2Proof.Machine

/-- The specification's number for a little-endian word is the model's word of two bytes (R9). -/
theorem absWord_eq_wordOf (lo hi : Byte) : absWord lo hi = wordOf lo hi := by
  rw [absWord, ← wordOf_toNat, BitVec.ofNat_toNat, BitVec.setWidth_eq]

/-- Two moves of SP by one are one move by two, with the same wrap-around (R12, R14). -/
theorem sp_add_one_add_one (sp : Byte) : sp + 1 + 1 = sp + 2 := BitVec.add_assoc sp 1 1

section StackWords

variable (s : State) (w : Word)

theorem pop16_sp : (pop16 s).2.sp = s.sp + 1 + 1 :=
  congrArg Registers.sp (pop16_toRegisters s)

/-- Pop16 reads twice, the low byte's cell first (R14, R66). -/
theorem pop16_bus : (pop16 s).2.bus = s.bus ++
    [.read (stackAddr (s.sp + 1)) (s.peek (stackAddr (s.sp + 1))),
      .read (stackAddr (s.sp + 1 + 1)) (s.peek (stackAddr (s.sp + 1 + 1)))] := by
  simp [pop16]

/-- The second store of Push16, the low byte at SP - 1, is the last one made (R13). -/
theorem push16_peek_low : (push16 w s).peek (stackAddr (s.sp - 1)) = loByte w := by
  rw [push16_peek, afterStore_same ((sameRamCell_stack _ _).mpr rfl)]

/-- The first store of Push16, the high byte at SP, outlives the second: SP and SP - 1 are different
cells of the stack page, at SP = 0 too (R13, R60). -/
theorem push16_peek_high : (push16 w s).peek (stackAddr s.sp) = hiByte w := by
  have hne : s.sp ≠ s.sp - 1 := by bv_omega
  rw [push16_peek, afterStore_other (mt (sameRamCell_stack _ _).mp hne),
    afterStore_same ((sameRamCell_stack _ _).mpr rfl)]

/-- Pop16 undoes the two decrements of Push16 (R14). -/
theorem pop16_push16_sp : (pop16 (push16 w s)).2.sp = s.sp := by
  rw [pop16_sp, push16_sp, BitVec.sub_add_cancel, BitVec.sub_add_cancel]

/-- Pop16 reads the two cells that Push16 wrote (R14). -/
theorem pop16_push16_fst : (pop16 (push16 w s)).1 = w := by
  rw [pop16_fst, push16_sp, BitVec.sub_add_cancel, BitVec.sub_add_cancel, push16_peek_low,
    push16_peek_high, wordOf_lo_hi]

end StackWords

/-- Settles O30: the value, the frame and the reads of Pop16 from its own laws, and the round trip because
the two cells of a pushed word are distinct for every SP. -/
theorem popAfterPushReturnsTheWord : Obligations.PopAfterPushReturnsTheWord := by
  refine ⟨fun s => ?_, fun w s => ⟨pop16_push16_fst s w, pop16_push16_sp s w⟩⟩
  rw [← sp_add_one_add_one, absWord_eq_wordOf]
  exact ⟨pop16_fst s, pop16_toRegisters s, pop16_peek s, pop16_bus s⟩

end Sys2Proof.Machine
end

section
/-! PROOFS. The decoder and the fetch read backwards: the bytes of a decoded instruction are its encoding,
and a step that completes ran one instruction, whose opcode stands at PC (30_encoding.md R80 to R87,
60_exceptions.md R200). -/

namespace Sys2Proof

/-- The opcode byte of an instruction (R87). -/
def Instr.opcode (i : Instr) : Byte := (encode i).headD 0

/-- An encoding begins with the opcode byte. -/
theorem encode_eq_opcode_cons (i : Instr) : encode i = i.opcode :: (encode i).tail := by
  cases i <;> rfl

/-- What a row of the opcode map builds from operand bytes has the row's opcode and those bytes as its
encoding (R85, R87). -/
def OpcodeRow.Encodes (row : OpcodeRow) : Prop :=
  match row.shape with
  | .implied i => encode i = [row.opcode]
  | .byte make => ∀ b, encode (make b) = [row.opcode, b]
  | .word make => ∀ w, encode (make w) = [row.opcode, loByte w, hiByte w]

theorem opcodeMap_encodes : ∀ row ∈ opcodeMap, row.Encodes := by
  simp [opcodeMap, OpcodeRow.Encodes, encode]

theorem encodes_of_lookupOpcode {op : Byte} {row : OpcodeRow} (h : lookupOpcode op = some row) :
    row.Encodes :=
  opcodeMap_encodes row (lookupOpcode_mem h).1

/-- The bytes that the decoder reads an instruction from are its encoding. -/
theorem eq_encode_append_of_decode_ok {bytes rest : List Byte} {i : Instr}
    (h : decode bytes = .ok i rest) : bytes = encode i ++ rest := by
  cases bytes with
  | nil => cases h
  | cons op operands =>
    cases hrow : lookupOpcode op with
    | none => simp [decode, hrow] at h
    | some row =>
      obtain ⟨opcode, format, cycles, shape⟩ := row
      have henc := encodes_of_lookupOpcode hrow
      obtain rfl : opcode = op := (lookupOpcode_mem hrow).2
      rcases shape with j | make | make
      · simp only [decode, hrow, Decoded.ok.injEq] at h
        obtain ⟨rfl, rfl⟩ := h
        rw [show encode j = [opcode] from henc]; rfl
      · rcases operands with _ | ⟨b, rest'⟩
        · simp [decode, hrow] at h
        · simp only [decode, hrow, Decoded.ok.injEq] at h
          obtain ⟨rfl, rfl⟩ := h
          rw [show encode (make b) = [opcode, b] from henc b]; rfl
      · rcases operands with _ | ⟨lo, _ | ⟨hi, rest'⟩⟩
        · simp [decode, hrow] at h
        · simp [decode, hrow] at h
        · simp only [decode, hrow, Decoded.ok.injEq] at h
          obtain ⟨rfl, rfl⟩ := h
          rw [show encode (make (wordOf lo hi)) = _ from henc (wordOf lo hi), loByte_wordOf,
            hiByte_wordOf]; rfl

/-- The opcode byte alone selects the instruction (R86). -/
theorem opcode_of_decode_ok {op : Byte} {operands rest : List Byte} {i : Instr}
    (h : decode (op :: operands) = .ok i rest) : op = i.opcode := by
  have hbytes := eq_encode_append_of_decode_ok h
  rw [encode_eq_opcode_cons i] at hbytes
  exact (List.cons.inj hbytes).1

/-- The row of an instruction's opcode announces as many operand bytes as its encoding holds. -/
theorem operandBytes_of_lookup_opcode {i : Instr} {row : OpcodeRow}
    (h : lookupOpcode i.opcode = some row) :
    row.format.operandBytes + 1 = (encode i).length := by
  have hshape : Laws.EncodingShape.Statement i := by cases i <;> exact ⟨_, rfl, rfl, rfl⟩
  obtain ⟨row', hrow', hformat, hlen⟩ := hshape
  obtain rfl : row = row' := Option.some.inj (h.symm.trans hrow')
  rw [hlen, ← hformat, Format.length]

end Sys2Proof

namespace Sys2Proof.Machine

/-- The state a step runs the meaning of `i` in: PC past its bytes, nothing reported yet, the fetch's reads
on the bus (R24, R66, R200). -/
def State.fetched (s : State) (i : Instr) : State :=
  { s with
    pc := s.pc + BitVec.ofNat 16 (encode i).length
    report := none
    bus := s.fetchReads s.pc (encode i).length }

@[simp] theorem State.fetched_peek (s : State) (i : Instr) : (s.fetched i).peek = s.peek := rfl

variable {s t u : State} {i : Instr}

/-- A fetch that gives an instruction found its opcode at PC and moved past its bytes. -/
theorem fetchInstruction_begin_instr (h : fetchInstruction s.begin = .instr i u) :
    s.peek s.pc = i.opcode ∧ u = s.fetched i := by
  cases hrow : lookupOpcode (s.peek s.pc) with
  | none => simp [fetchInstruction, hrow] at h
  | some row =>
    simp only [fetchInstruction, fetch8_fst, State.begin_pc, State.begin_peek, hrow] at h
    split at h
    next j rest hdec =>
      obtain ⟨rfl, rfl⟩ := Fetched.instr.inj h
      have hop := opcode_of_decode_ok hdec
      refine ⟨hop, ?_⟩
      rw [State.fetched, ← operandBytes_of_lookup_opcode (hop ▸ hrow),
        ← fetchReads_congr (s := s) (t := s.begin) fun _ => rfl]
      exact fetchBytes_snd (row.format.operandBytes + 1) s.begin
    next => cases h
    next => cases h

/-- A step answers a next state only by running the instruction whose opcode stands at PC. -/
theorem step_next_exec (h : step s = .next t) :
    ∃ i, s.peek s.pc = i.opcode ∧ exec i (s.fetched i) = .next t := by
  obtain ⟨-, i, u, hfetch, hexec⟩ := step_next_cases h
  obtain ⟨hop, rfl⟩ := fetchInstruction_begin_instr hfetch
  exact ⟨i, hop, hexec⟩

end Sys2Proof.Machine
end

section
/-! PROOFS. What the meaning of each instruction leaves, said once: the six registers and every byte of
memory (10_state.md R38). -/

namespace Sys2Proof.Machine

/-- The registers that the meaning of an instruction leaves, from a state in which PC is past its bytes. -/
def registersAfter (i : Instr) (s : State) : Registers :=
  match i with
  | .brk => { s.toRegisters with p := s.p.setB }
  | .nop => s.toRegisters
  | .ldaImm imm => { s.toRegisters with a := imm, p := s.p.setZN imm }
  | .ldaZp zp =>
    { s.toRegisters with a := s.peek (zeroPageAddr zp), p := s.p.setZN (s.peek (zeroPageAddr zp)) }
  | .ldaAbs addr => { s.toRegisters with a := s.peek addr, p := s.p.setZN (s.peek addr) }
  | .staZp _ => s.toRegisters
  | .staAbs _ => s.toRegisters
  | .ldxImm imm => { s.toRegisters with x := imm, p := s.p.setZN imm }
  | .inx => { s.toRegisters with x := s.x + 1, p := s.p.setZN (s.x + 1) }
  | .dex => { s.toRegisters with x := s.x - 1, p := s.p.setZN (s.x - 1) }
  | .jmpAbs target => { s.toRegisters with pc := target }
  | .jsrAbs target => { s.toRegisters with sp := s.sp - 1 - 1, pc := target }
  | .rts =>
    { s.toRegisters with
      sp := s.sp + 1 + 1
      pc := wordOf (s.peek (stackAddr (s.sp + 1))) (s.peek (stackAddr (s.sp + 1 + 1))) + 1 }
  | .sei => { s.toRegisters with p := s.p.setI }
  | .cld => { s.toRegisters with p := s.p.clearD }
  | .txs => { s.toRegisters with sp := s.x }
  | .tsx => { s.toRegisters with x := s.sp, p := s.p.setZN s.sp }
  | .pha => { s.toRegisters with sp := s.sp - 1 }
  | .pla =>
    { s.toRegisters with
      a := s.peek (stackAddr (s.sp + 1))
      sp := s.sp + 1
      p := s.p.setZN (s.peek (stackAddr (s.sp + 1))) }
  | .adcImm imm =>
    { s.toRegisters with
      a := BitVec.ofNat 8 (adcSum s.a imm s.p.c)
      p := (s.p.setAdc .unchanged s.a imm (adcSum s.a imm s.p.c)).setZN
        (BitVec.ofNat 8 (adcSum s.a imm s.p.c)) }

/-- The bytes that read back after the meaning of an instruction; only four instructions store. -/
def readsAfter (i : Instr) (s : State) : Word → Byte :=
  match i with
  | .staZp zp => afterStore s.peek (zeroPageAddr zp) s.a
  | .staAbs addr => afterStore s.peek addr s.a
  | .jsrAbs _ =>
    afterStore (afterStore s.peek (stackAddr s.sp) (hiByte (s.pc - 1)))
      (stackAddr (s.sp - 1)) (loByte (s.pc - 1))
  | .pha => afterStore s.peek (stackAddr s.sp) s.a
  | _ => s.peek

/-- `t` is what the meaning of `i` leaves from `s`, in its registers and its memory. -/
structure Leaves (i : Instr) (s t : State) : Prop where
  registers : t.toRegisters = registersAfter i s
  reads : ∀ a, t.peek a = readsAfter i s a
  prgSize : t.prgSize = s.prgSize

variable {i : Instr} {s t : State}

theorem exec_leaves (h : exec i s = .next t) : Leaves i s t := by
  cases i with
  | staZp zp =>
    cases h
    exact ⟨memWrite_toRegisters s _ _, memWrite_peek s _ _, memWrite_prgSize s _ _⟩
  | staAbs addr =>
    cases h
    exact ⟨memWrite_toRegisters s _ _, memWrite_peek s _ _, memWrite_prgSize s _ _⟩
  | pha =>
    cases h
    refine ⟨by simp [registersAfter], fun a => ?_, by simp⟩
    rw [State.setReport_peek, push8_peek]; rfl
  | jsrAbs target =>
    cases h
    refine ⟨by simp [registersAfter], fun a => ?_, by simp⟩
    rw [State.setReport_peek, State.setPc_peek, push16_peek]; rfl
  | _ => cases h; exact ⟨rfl, fun _ => rfl, rfl⟩

/-- A completed step leaves what the instruction at PC leaves from the fetched state. -/
theorem step_leaves (h : step s = .next t) :
    ∃ i, s.peek s.pc = i.opcode ∧ Leaves i (s.fetched i) t := by
  obtain ⟨i, hop, hexec⟩ := step_next_exec h
  exact ⟨i, hop, exec_leaves hexec⟩

end Sys2Proof.Machine
end

section
/-! PROOFS. The reachable form of P (10_state.md R39): every flag update keeps it, hence every step. -/

namespace Sys2Proof.Machine

section FlagUpdates

variable {p : Status} (h : StatusReachable p)
include h

/-- `SetZN` never sets both Z and N: zero has bit 7 clear (R10). -/
theorem StatusReachable.setZN (v : Byte) : StatusReachable (p.setZN v) := by
  refine ⟨h.interruptDisable, h.decimal, h.overflow, ?_⟩
  rintro ⟨hz, hn⟩
  obtain rfl : v = 0 := eq_of_beq hz
  cases hn

/-- ADC writes C alone before `SetZN`, and the form says nothing of C (R39, R170, R172). -/
theorem StatusReachable.setAdc (a m : Byte) (sum : Nat) :
    StatusReachable (p.setAdc .unchanged a m sum) :=
  ⟨h.interruptDisable, h.decimal, h.overflow, h.notZeroAndNegative⟩

theorem StatusReachable.setI : StatusReachable p.setI :=
  ⟨rfl, h.decimal, h.overflow, h.notZeroAndNegative⟩

theorem StatusReachable.clearD : StatusReachable p.clearD :=
  ⟨h.interruptDisable, rfl, h.overflow, h.notZeroAndNegative⟩

theorem StatusReachable.setB : StatusReachable p.setB :=
  ⟨h.interruptDisable, h.decimal, h.overflow, h.notZeroAndNegative⟩

end FlagUpdates

/-- The meaning of every instruction leaves P unchanged or as one of the five updates makes it. -/
theorem statusReachable_registersAfter (i : Instr) (s : State) (h : StatusReachable s.p) :
    StatusReachable (registersAfter i s).p := by
  cases i with
  | brk => exact h.setB
  | sei => exact h.setI
  | cld => exact h.clearD
  | adcImm imm => exact (h.setAdc _ _ _).setZN _
  | ldaImm | ldaZp | ldaAbs | ldxImm | inx | dex | tsx | pla => exact h.setZN _
  | nop | staZp | staAbs | jmpAbs | jsrAbs | rts | txs | pha => exact h

theorem statusReachable_afterReset : StatusReachable Status.afterReset :=
  ⟨rfl, rfl, rfl, by decide⟩

/-- Settles O47: the P a step leaves is that of its instruction, which keeps the form. -/
theorem stepKeepsStatusReachable : Obligations.StepKeepsStatusReachable := by
  intro s t h hstep
  obtain ⟨i, -, hleaves⟩ := step_leaves hstep
  rw [hleaves.registers]
  exact statusReachable_registersAfter i (s.fetched i) h

/-- Settles O48: both memories are empty and P is P after reset. -/
theorem resetStateMeetsTheInvariants : Obligations.ResetStateMeetsTheInvariants :=
  ⟨⟨reset_ram_wf.1, Memory.below_nil _, reset_ram_wf.2, Memory.below_nil _⟩,
    statusReachable_afterReset, rfl⟩

end Sys2Proof.Machine
end

section
/-! PROOFS. The writers of each register, of each flag and of memory (10_state.md R21 to R38): every
instruction but the listed ones keeps it. -/

namespace Sys2Proof.Machine

variable {i : Instr} {s t : State}

/-! ### Registers -/

theorem registersAfter_a (h : i.opcode ∉ ([0xA9, 0xA5, 0xAD, 0x68, 0x69] : List Byte)) :
    (registersAfter i s).a = s.a := by
  cases i with
  | ldaImm | ldaZp | ldaAbs | pla | adcImm => simp [Instr.opcode, encode] at h
  | _ => rfl

theorem registersAfter_x (h : i.opcode ∉ ([0xA2, 0xE8, 0xCA, 0xBA] : List Byte)) :
    (registersAfter i s).x = s.x := by
  cases i with
  | ldxImm | inx | dex | tsx => simp [Instr.opcode, encode] at h
  | _ => rfl

theorem registersAfter_y : (registersAfter i s).y = s.y := by
  cases i <;> rfl

theorem registersAfter_sp (h : i.opcode ∉ ([0x9A, 0x48, 0x68, 0x20, 0x60] : List Byte)) :
    (registersAfter i s).sp = s.sp := by
  cases i with
  | txs | pha | pla | jsrAbs | rts => simp [Instr.opcode, encode] at h
  | _ => rfl

/-- Settles O36: the registers a step leaves are those of its instruction, and the opcode at PC is that
instruction's. -/
theorem registersHaveOnlyTheirWriters : Obligations.RegistersHaveOnlyTheirWriters := by
  intro s t hstep
  obtain ⟨i, hop, hleaves⟩ := step_leaves hstep
  rw [hop, hleaves.registers]
  exact ⟨registersAfter_a, registersAfter_x, registersAfter_y, registersAfter_sp⟩

/-! ### Flags -/

theorem registersAfter_carry (h : i.opcode ≠ 0x69) : (registersAfter i s).p.c = s.p.c := by
  cases i with
  | adcImm => exact absurd rfl h
  | _ => rfl

theorem registersAfter_zero_negative
    (h : i.opcode ∉ ([0xA9, 0xA5, 0xAD, 0xA2, 0xE8, 0xCA, 0xBA, 0x68, 0x69] : List Byte)) :
    (registersAfter i s).p.z = s.p.z ∧ (registersAfter i s).p.n = s.p.n := by
  cases i with
  | ldaImm | ldaZp | ldaAbs | ldxImm | inx | dex | tsx | pla | adcImm =>
    simp [Instr.opcode, encode] at h
  | _ => exact ⟨rfl, rfl⟩

theorem registersAfter_interruptDisable :
    (registersAfter i s).p.i = true ↔ s.p.i = true ∨ i.opcode = 0x78 := by
  cases i with
  | sei => exact ⟨fun _ => .inr rfl, fun _ => rfl⟩
  | _ => exact (or_iff_left (by simp [Instr.opcode, encode])).symm

theorem registersAfter_decimal :
    (registersAfter i s).p.d = true ↔ s.p.d = true ∧ i.opcode ≠ 0xD8 := by
  cases i with
  | cld => exact ⟨nofun, fun h => absurd rfl h.2⟩
  | _ => exact (and_iff_left (by simp [Instr.opcode, encode])).symm

theorem registersAfter_break :
    (registersAfter i s).p.b = true ↔ s.p.b = true ∨ i.opcode = 0x00 := by
  cases i with
  | brk => exact ⟨fun _ => .inr rfl, fun _ => rfl⟩
  | _ => exact (or_iff_left (by simp [Instr.opcode, encode])).symm

theorem registersAfter_overflow : (registersAfter i s).p.v = s.p.v := by
  cases i <;> rfl

/-- Settles O37: the flags a step leaves are those of its instruction, and the opcode at PC is that
instruction's. -/
theorem flagsHaveOnlyTheirWriters : Obligations.FlagsHaveOnlyTheirWriters := by
  intro s t hstep
  obtain ⟨i, hop, hleaves⟩ := step_leaves hstep
  rw [hop, hleaves.registers]
  exact ⟨registersAfter_carry, registersAfter_zero_negative, registersAfter_interruptDisable,
    registersAfter_decimal, registersAfter_break, registersAfter_overflow⟩

/-! ### Memory -/

theorem readsAfter_eq (h : i.opcode ∉ ([0x85, 0x8D, 0x48, 0x20] : List Byte)) :
    readsAfter i s = s.peek := by
  cases i with
  | staZp | staAbs | pha | jsrAbs => simp [Instr.opcode, encode] at h
  | _ => rfl

theorem readsAfter_high {a : Word} (h : 0x2000 ≤ a.toNat) : readsAfter i s a = s.peek a := by
  cases i with
  | staZp | staAbs | pha => exact afterStore_high h _
  | jsrAbs => exact (afterStore_high h _).trans (afterStore_high h _)
  | _ => rfl

/-- Settles O38: the bytes a step leaves are those of its instruction, and a store never reaches 0x2000. -/
theorem memoryHasOnlyItsWriters : Obligations.MemoryHasOnlyItsWriters := by
  intro s t hstep
  obtain ⟨i, hop, hleaves⟩ := step_leaves hstep
  refine ⟨fun hwriter a => ?_, fun a ha => ?_, hleaves.prgSize⟩
  · rw [hleaves.reads, readsAfter_eq (hop ▸ hwriter), State.fetched_peek]
  · rw [hleaves.reads, readsAfter_high ha, State.fetched_peek]

end Sys2Proof.Machine
end

section
/-! PROOFS. The status byte of the snapshot, bit by bit (10_state.md R29, R35, R39). -/

namespace Sys2Proof.Machine

/-- A flag stands at its own bit position alone. -/
theorem flagBit_getElem (f : Bool) (k j : Nat) (hj : j < 8) :
    (flagBit f k)[j] = (f && decide (k = j)) := by
  cases f with
  | false => simp [flagBit]
  | true =>
    rw [← BitVec.getLsbD_eq_getElem, flagBit, if_pos rfl, BitVec.getLsbD_ofNat, Nat.testBit_two_pow]
    simp [hj]

section StatusByte

variable (p : Status)

theorem Status.toByte_bit5 : p.toByte.getLsbD 5 = true := by
  simp [Status.toByte]

/-- The byte determines the flags. -/
theorem Status.ofByte_toByte : Status.ofByte p.toByte = p := by
  simp [Status.ofByte, Status.toByte, flagBit_getElem]

end StatusByte

/-- Of the bits of a byte only Unused is not kept: it reads 1 (R35, D22). -/
theorem Status.toByte_ofByte (v : Byte) : (Status.ofByte v).toByte = v ||| 0x20 := by
  refine BitVec.eq_of_getLsbD_eq fun j hj => ?_
  interval_cases j <;> simp [Status.ofByte, Status.toByte, flagBit_getElem]

/-- The formula of R39. -/
theorem StatusReachable.toByte_toNat {p : Status} (h : StatusReachable p) :
    p.toByte.toNat =
      0x24 + 0x10 * p.b.toNat + p.c.toNat + 0x02 * p.z.toNat + 0x80 * p.n.toNat := by
  obtain ⟨c, z, i, d, b, v, n⟩ := p
  obtain ⟨hi, hd, hv, -⟩ := h
  obtain rfl : i = true := hi
  obtain rfl : d = false := hd
  obtain rfl : v = false := hv
  revert c z b n
  decide

/-- Settles O51: bit by bit, and by the formula of R39 over the four flags that the form leaves open. -/
theorem snapshotShowsTheStatusByte : Obligations.SnapshotShowsTheStatusByte :=
  ⟨fun s => ⟨s.p.toByte_bit5, s.p.ofByte_toByte⟩, Status.toByte_ofByte, fun _ h => h.toByte_toNat⟩

end Sys2Proof.Machine
end

section
/-! PROOFS. Power-on of a ROM of either size (20_memory.md R55, R58; 70_reset_and_hazards.md R240 to
R245). -/

namespace Sys2Proof.Machine

/-- The two lengths that have a size class, each its own (R55, D10). -/
theorem prgSize_of_length {n : Nat} (h : n = 16384 ∨ n = 32768) :
    ∃ size, Config.PrgSize.ofLength? n = some size ∧ size.bytes = n := by
  obtain rfl | rfl := h
  · exact ⟨.kib16, rfl, rfl⟩
  · exact ⟨.kib32, rfl, rfl⟩

/-- The index into the ROM is the offset modulo its size, at either size: the 32 KiB ROM fills its
window (R55). -/
theorem romIndex_eq_mod (size : Config.PrgSize) (addr : Word) :
    romIndex size addr = (addr.toNat - 0x8000) % size.bytes := by
  cases size with
  | kib16 => rfl
  | kib32 =>
    have h := addr.isLt
    rw [romIndex_kib32, Config.PrgSize.bytes, Nat.mod_eq_of_lt (by omega)]

/-- From 0x8000 on, a machine whose ROM was loaded from a buffer reads the buffer (R55). -/
theorem peek_loaded_rom {s : State} {prg : List Byte} (hprg : s.prg = Memory.ofBytesFrom 0 prg)
    (hsize : s.prgSize.bytes = prg.length) {addr : Word} (h : 0x8000 ≤ addr.toNat) :
    s.peek addr = prg.getD ((addr.toNat - 0x8000) % prg.length) blankByte := by
  have hread := Memory.read_ofBytesFrom prg 0 ((addr.toNat - 0x8000) % prg.length)
  rw [Nat.zero_add] at hread
  rw [peek_rom s h, romIndex_eq_mod, hprg, hsize, hread]

/-- The core bound to a bus with this PRG buffer, before its first reset (R58, R242). -/
def constructed (prg : List Byte) (size : Config.PrgSize) (a x y : Byte) : State :=
  { a := a, x := x, y := y, sp := 0, pc := 0, p := Status.ofByte 0,
    ram := [], prg := Memory.ofBytesFrom 0 prg, prgSize := size,
    phase := .notReset, report := none, bus := [] }

theorem boot_eq_applyReset {prg : List Byte} {size : Config.PrgSize}
    (h : Config.PrgSize.ofLength? prg.length = some size) (a x y : Byte) :
    boot prg a x y = .next (applyReset (constructed prg size a x y)) := by
  simp only [boot, construct, h, constructed]

/-- The reset vector lies at the fourth and third byte from the end of the ROM, at either size (R244). -/
theorem vector_offset {n : Nat} (h : n = 16384 ∨ n = 32768) :
    ((0xFFFC : Word).toNat - 0x8000) % n = n - 4 ∧ ((0xFFFD : Word).toNat - 0x8000) % n = n - 3 := by
  obtain rfl | rfl := h <;> exact ⟨rfl, rfl⟩

/-- Settles O54: boot is the reset of the constructed core, whose ROM reads as the buffer. -/
theorem bootRunsTheRomAtItsVector : Obligations.BootRunsTheRomAtItsVector := by
  intro prg a x y hlen
  obtain ⟨size, hsize, hbytes⟩ := prgSize_of_length hlen
  obtain ⟨hlo, hhi⟩ := vector_offset hlen
  have hrom : ∀ addr : Word, 0x8000 ≤ addr.toNat → (constructed prg size a x y).peek addr =
      prg.getD ((addr.toNat - 0x8000) % prg.length) blankByte :=
    fun addr h => peek_loaded_rom rfl hbytes h
  refine ⟨_, boot_eq_applyReset hsize a x y, rfl, rfl, rfl, rfl, rfl, ?_, fun addr h => ?_, hrom⟩
  · rw [congrArg Registers.pc (applyReset_toRegisters _), hrom 0xFFFC (by decide),
      hrom 0xFFFD (by decide), hlo, hhi, absWord_eq_wordOf]
    rfl
  · rw [applyReset_peek, peek_ram _ h]
    rfl

end Sys2Proof.Machine
end

section
/-! PROOFS. Every step keeps the memories canonical (20_memory.md R54, R55, R58), and the canonical form is
one form for each content (20_memory.md R51). -/

namespace Sys2Proof.Machine

variable {i : Instr} {s t : State}

/-- The meaning of every instruction keeps the memories canonical: four instructions store, through
MemWrite, and the others touch no memory. -/
theorem exec_canonical (h : MemoryCanonical s) (hexec : exec i s = .next t) : MemoryCanonical t := by
  cases i with
  | staZp | staAbs => cases hexec; exact (memWrite_canonical h _ _).setReport _
  | pha => cases hexec; exact (push8_canonical h _).setReport _
  | jsrAbs => cases hexec; exact ((push16_canonical h _).setPc _).setReport _
  | _ => cases hexec; exact h.congr rfl rfl rfl

/-- Settles O46: the fetch changes no memory, and the meaning of the fetched instruction keeps the form. -/
theorem stepKeepsMemoryCanonical : Obligations.StepKeepsMemoryCanonical := by
  intro s t h hstep
  obtain ⟨i, -, hexec⟩ := step_next_exec hstep
  have hfetched : MemoryCanonical (s.fetched i) := h.congr rfl rfl rfl
  exact exec_canonical hfetched hexec

/-- With rising indices a listed entry is what its index reads as. -/
theorem Memory.read_of_mem {m : Memory} (h : m.Pairwise (fun c d => c.1 < d.1)) {c : Host.Cell}
    (hc : c ∈ m) : m.read c.1 = c.2 := by
  induction m with
  | nil => cases hc
  | cons d m ih =>
    obtain ⟨hd, hm⟩ := List.pairwise_cons.mp h
    rcases List.mem_cons.mp hc with rfl | hc
    · exact if_pos rfl
    · rw [Memory.read, if_neg (hd c hc).ne, ih hm hc]

/-- An index that does not read as blank is listed, with the byte it reads as. -/
theorem Memory.mem_of_read_ne_blank {m : Memory} {a : Nat} (h : m.read a ≠ blankByte) :
    (a, m.read a) ∈ m := by
  induction m with
  | nil => exact absurd rfl h
  | cons d m ih =>
    obtain ⟨k, w⟩ := d
    by_cases hk : k = a
    · simp [Memory.read, hk]
    · simp only [Memory.read, hk, if_false] at h ⊢
      exact List.mem_cons_of_mem _ (ih h)

/-- The entries of a canonical memory are the bytes that do not read as blank. -/
theorem Memory.mem_iff_read {m : Memory} (h : m.wf) (c : Host.Cell) :
    c ∈ m ↔ c.2 ≠ blankByte ∧ m.read c.1 = c.2 := by
  constructor
  · exact fun hc => ⟨h.2 c hc, Memory.read_of_mem h.1 hc⟩
  · rintro ⟨hne, hread⟩
    have hmem := Memory.mem_of_read_ne_blank (hread ▸ hne : m.read c.1 ≠ blankByte)
    rwa [hread] at hmem

/-- Settles O50: equal reads give equal entries, and a list of rising indices is determined by its
entries. -/
theorem canonicalMemoriesThatReadAlikeAreEqual :
    Obligations.CanonicalMemoriesThatReadAlikeAreEqual := by
  intro m n hm hn hread
  refine List.Pairwise.eq_of_mem_iff (r := InvImage (· < ·) Prod.fst) hm.1 hn.1 fun c => ?_
  rw [Memory.mem_iff_read hm, Memory.mem_iff_read hn, hread]

end Sys2Proof.Machine
end

section
/-! PROOFS. The step read forwards: bytes that encode an instruction are fetched as that instruction, its
meaning completes, and its bus transactions are those of the table of 20_memory.md R66. -/

namespace Sys2Proof

/-- The decoder reads an instruction back from its encoding, whatever follows (R80 to R87). -/
theorem decode_encode_append (i : Instr) (rest : List Byte) :
    decode (encode i ++ rest) = .ok i rest := by
  cases i <;> simp [encode, decode]

/-- Every instruction's opcode has a row of the opcode map. -/
theorem lookupOpcode_opcode (i : Instr) : ∃ row, lookupOpcode i.opcode = some row := by
  cases i <;> exact ⟨_, rfl⟩

end Sys2Proof

namespace Sys2Proof.Machine

variable {i : Instr} {s t : State}

/-- A running machine with an encoding at PC runs the meaning of its instruction, from the fetched state. -/
theorem step_of_bytesAt (hrun : s.Running) (hat : s.BytesAt s.pc (encode i)) :
    step s = exec i (s.fetched i) := by
  obtain ⟨row, hrow⟩ := lookupOpcode_opcode i
  have hlen : (encode i).tail.length + 1 = (encode i).length := by
    rw [encode_eq_opcode_cons i]; rfl
  have hdec : decode (i.opcode :: (encode i).tail) = .ok i [] := by
    rw [← encode_eq_opcode_cons, ← decode_encode_append i [], List.append_nil]
  rw [encode_eq_opcode_cons] at hat
  obtain ⟨hop, hoperands⟩ := (bytesAt_congr (s := s) (t := s.begin) (fun _ => rfl) _ _).mpr hat
  have hcount : (encode i).tail.length = row.format.operandBytes := by
    have := operandBytes_of_lookup_opcode hrow
    omega
  have hfetch := fetchInstruction_instr (s := s.begin) (hop ▸ hrow) hcount hoperands (hop ▸ hdec)
  rw [step_running hrun, hfetch, hlen, State.fetched,
    ← fetchReads_congr (s := s) (t := s.begin) fun _ => rfl]
  rfl

/-- No instruction's meaning ends in a fault or a refusal (R201, R202). -/
theorem exec_completes (i : Instr) (s : State) : ∃ t, exec i s = .next t := by
  cases i <;> exact ⟨_, rfl⟩

theorem step_completes_of_bytesAt (hrun : s.Running) (hat : s.BytesAt s.pc (encode i)) :
    ∃ t, step s = .next t ∧ exec i (s.fetched i) = .next t := by
  obtain ⟨t, hexec⟩ := exec_completes i (s.fetched i)
  exact ⟨t, (step_of_bytesAt hrun hat).trans hexec, hexec⟩

/-- The specification's number for a zero-page address is the model's (R116). -/
theorem ofNat_toNat_eq_zeroPageAddr (zp : Byte) : BitVec.ofNat 16 zp.toNat = zeroPageAddr zp := by
  rw [← BitVec.toNat_inj, zeroPageAddr_toNat, BitVec.toNat_ofNat]
  have := zp.isLt
  omega

/-- The bytes of a word, as numbers of the specification (R6). -/
theorem ofNat_div_eq_hiByte (w : Word) : BitVec.ofNat 8 (w.toNat / 256) = hiByte w := by
  rw [← hiByte_toNat, BitVec.ofNat_toNat, BitVec.setWidth_eq]

theorem ofNat_eq_loByte (w : Word) : BitVec.ofNat 8 w.toNat = loByte w := by
  rw [← BitVec.toNat_inj, loByte_toNat, BitVec.toNat_ofNat]

/-- The meaning of an instruction adds its data transactions to the bus (R66). -/
theorem exec_bus (h : exec i (s.fetched i) = .next t) :
    t.bus = (s.fetched i).bus ++ dataTransactions s i := by
  cases i with
  | ldaZp zp =>
    cases h
    rw [dataTransactions, ofNat_toNat_eq_zeroPageAddr]; rfl
  | ldaAbs => cases h; rfl
  | staZp zp =>
    cases h
    rw [dataTransactions, ofNat_toNat_eq_zeroPageAddr]
    exact memWrite_bus _ _ _
  | staAbs addr => cases h; exact memWrite_bus _ _ _
  | jsrAbs target =>
    cases h
    have hret : s.pc + 2 = (s.fetched (.jsrAbs target)).pc - 1 := by
      show s.pc + 2 = s.pc + 3 - 1
      bv_omega
    rw [dataTransactions, hret, ofNat_div_eq_hiByte, ofNat_eq_loByte]
    exact push16_bus _ _
  | rts =>
    cases h
    rw [dataTransactions, ← sp_add_one_add_one]
    exact pop16_bus _
  | pha => cases h; exact push8_bus _ _
  | pla => cases h; rfl
  | _ => cases h; exact (List.append_nil _).symm

/-- Settles O45: the fetch leaves the reads of the instruction's bytes, and the meaning adds its own
transactions behind them. -/
theorem stepsMakeExactlyTheseBusTransactions : Obligations.StepsMakeExactlyTheseBusTransactions := by
  intro s i hrun hat
  obtain ⟨t, hstep, hexec⟩ := step_completes_of_bytesAt hrun hat
  exact ⟨t, hstep, exec_bus hexec⟩

/-- STA absolute is encoded with the two bytes of its address, low byte first (R84, R114). -/
theorem encode_staAbs_absWord (lo hi : Byte) : encode (.staAbs (absWord lo hi)) = [0x8D, lo, hi] := by
  simp [encode, absWord_eq_wordOf]

/-- Settles O43: the step leaves what the store leaves, and the next opcode is read from the stored cell. -/
theorem storedCodeIsFetchedNext : Obligations.StoredCodeIsFetchedNext := by
  intro s lo hi hrun hat hcell
  rw [← encode_staAbs_absWord] at hat
  obtain ⟨t, hstep, hexec⟩ := step_completes_of_bytesAt hrun hat
  have hleaves := exec_leaves hexec
  have hpc : t.pc = s.pc + 3 := congrArg Registers.pc hleaves.registers
  refine ⟨t, hstep, hpc, ?_⟩
  rw [hleaves.reads, hpc]
  exact afterStore_same hcell _

end Sys2Proof.Machine
end

section
/-! PROOFS. The memory map (20_memory.md R54 to R57): the RAM and its mirrors, the empty window, the ROM
and its mirror, and the ROM sizes that boot refuses. -/

namespace Sys2Proof.Machine

/-- A store at 0x2000 or above changes no byte (R52, R56, R57). -/
theorem afterStore_discarded {read : Word → Byte} {addr : Word} (h : 0x2000 ≤ addr.toNat) (v : Byte)
    (a : Word) : afterStore read addr v a = read a :=
  afterStore_other (fun hcell => absurd hcell.1 (Nat.not_lt.mpr h)) v

/-- Settles O39: the store leaves the registers, and its write is discarded. -/
theorem storeToRomIsDiscarded : Obligations.StoreToRomIsDiscarded := by
  intro addr s h
  obtain ⟨t, hexec⟩ := exec_completes (.staAbs addr) s
  have hleaves := exec_leaves hexec
  refine ⟨t, hexec, hleaves.registers, fun a => ?_, ?_, ?_⟩
  · rw [hleaves.reads]
    exact afterStore_discarded (by omega) _ _
  · cases hexec; exact memWrite_prg s _ _
  · cases hexec; rfl

/-- Settles O40: a read there is 0x00 in every state, the one after a write included, and the write is
discarded. -/
theorem emptyWindowReadsZero : Obligations.EmptyWindowReadsZero := by
  intro addr s h h'
  refine ⟨peek_window s h h', rfl, fun _ => rfl, fun v => ⟨peek_window _ h h', ?_, fun a => ?_⟩⟩
  · exact memWrite_toRegisters s addr v
  · rw [memWrite_peek, afterStore_discarded h]

/-- Settles O41: both addresses designate the RAM cell of the remainder. -/
theorem ramIsMirrored : Obligations.RamIsMirrored := by
  intro addr s h
  have hmod : addr.toNat % 0x800 < 0x2000 := by omega
  have hbase : (BitVec.ofNat 16 (addr.toNat % 0x800)).toNat = addr.toNat % 0x800 := by
    rw [BitVec.toNat_ofNat]; omega
  refine ⟨?_, fun v a => ?_⟩
  · rw [peek_ram s h, peek_ram s (hbase.trans_lt hmod), hbase, Nat.mod_mod]
  · have hcell : SameRamCell addr a ↔ SameRamCell (BitVec.ofNat 16 (addr.toNat % 0x800)) a := by
      simp only [SameRamCell, h, hbase, hmod, Nat.mod_mod]
    simp only [memWrite_peek, afterStore, hcell]

/-- In either half of its window a 16 KiB ROM reads the byte at the offset (R55). -/
theorem peek_kib16 {s : State} (hsize : s.prgSize = .kib16) {base k : Nat}
    (hbase : base = 0x8000 ∨ base = 0xC000) (hk : k < 0x4000) :
    s.peek (BitVec.ofNat 16 (base + k)) = s.prg.read k := by
  have haddr : (BitVec.ofNat 16 (base + k)).toNat = base + k := by
    rw [BitVec.toNat_ofNat]; omega
  have hindex : (base + k - 0x8000) % 16384 = k := by omega
  rw [peek_rom s (by omega), hsize, romIndex_kib16, haddr, hindex]

/-- Settles O42: both halves of the window read byte `k` of the buffer. -/
theorem smallRomIsMirrored : Obligations.SmallRomIsMirrored := by
  intro s k hsize hk
  have hlow := peek_kib16 hsize (.inl rfl) hk
  have hhigh := peek_kib16 hsize (.inr rfl) hk
  exact ⟨hlow.trans hhigh.symm, hlow⟩

/-- A buffer of any other length has no size class (R55, D10). -/
theorem prgSize_ofLength_none {n : Nat} (h16 : n ≠ 16384) (h32 : n ≠ 32768) :
    Config.PrgSize.ofLength? n = none := by
  rw [Config.PrgSize.ofLength?, if_neg h16, if_neg h32]

/-- Settles O55: without a size class the construction is refused, and boot passes the refusal on. -/
theorem bootRefusesOtherRomSizes : Obligations.BootRefusesOtherRomSizes := by
  intro prg a x y h16 h32
  simp only [boot, construct, prgSize_ofLength_none h16 h32]

end Sys2Proof.Machine
end

section
/-! PROOFS. The decoder and the encoder are inverse, and the decoder rejects exactly the opcodes without a
row in the opcode map (30_encoding.md R80 to R90). -/

namespace Sys2Proof

open Machine

/-- Settles O1: the opcode of each instruction finds its row, which builds it from the bytes that follow. -/
theorem encodeThenDecodeReturnsInstruction : Obligations.EncodeThenDecodeReturnsInstruction :=
  decode_encode_append

/-- Settles O2: a row of the opcode map builds only instructions whose encoding is the row's opcode and
the operand bytes taken. -/
theorem decodedBytesAreTheEncoding : Obligations.DecodedBytesAreTheEncoding :=
  fun _ _ _ => eq_encode_append_of_decode_ok

/-- The table's rows and the ascending list of supported values hold the same opcodes (R87). -/
theorem opcodeMap_perm_supportedOpcodes :
    (opcodeMap.map OpcodeRow.opcode).Perm supportedOpcodes := by
  decide

theorem lookupOpcode_eq_none_iff {op : Byte} :
    lookupOpcode op = none ↔ op ∉ supportedOpcodes := by
  rw [← opcodeMap_perm_supportedOpcodes.mem_iff]
  simp [lookupOpcode]

/-- The decoder rejects a byte for the lack of a row alone, whatever follows it (R86, R88). -/
theorem decode_eq_unsupportedOpcode_iff {op : Byte} {rest : List Byte} :
    decode (op :: rest) = .unsupportedOpcode op ↔ lookupOpcode op = none := by
  cases hrow : lookupOpcode op with
  | none => simp [decode, hrow]
  | some row =>
    simp only [decode, hrow]
    split <;> simp

/-- Two bytes are operands enough for every row, and none of their values is illegal (R80, R90). -/
theorem decode_ok_of_lookupOpcode {op : Byte} {row : OpcodeRow} (h : lookupOpcode op = some row)
    (b1 b2 : Byte) (rest : List Byte) : ∃ i r, decode (op :: b1 :: b2 :: rest) = .ok i r := by
  obtain ⟨opcode, format, cycles, shape⟩ := row
  simp only [decode, h]
  cases shape <;> exact ⟨_, _, rfl⟩

/-- As numbers, the supported values below 256 are the 20 opcodes, each once. -/
theorem filter_supported_perm :
    ((List.range 256).filter fun n => decide (BitVec.ofNat 8 n ∈ supportedOpcodes)).Perm
      (supportedOpcodes.map BitVec.toNat) := by
  refine (List.perm_ext_iff_of_nodup (List.nodup_range.filter _) (by decide)).mpr fun n => ?_
  simp only [List.mem_filter, List.mem_range, decide_eq_true_eq, List.mem_map]
  constructor
  · rintro ⟨hn, hmem⟩
    exact ⟨_, hmem, by rw [BitVec.toNat_ofNat, Nat.mod_eq_of_lt hn]⟩
  · rintro ⟨op, hop, rfl⟩
    exact ⟨op.isLt, by rwa [BitVec.ofNat_toNat, BitVec.setWidth_eq]⟩

/-- The other values are 256 - 20 (R88). -/
theorem length_filter_unsupported :
    ((List.range 256).filter fun n => decide (BitVec.ofNat 8 n ∉ supportedOpcodes)).length = 236 := by
  have hsplit := List.length_eq_length_filter_add (l := List.range 256)
    fun n => decide (BitVec.ofNat 8 n ∈ supportedOpcodes)
  have hsupported : (supportedOpcodes.map BitVec.toNat).length = 20 := rfl
  rw [List.length_range, filter_supported_perm.length_eq, hsupported] at hsplit
  simp only [decide_not]
  omega

/-- Settles O3: a rejected byte is one without a row, and the rows are those of the 20 supported opcodes. -/
theorem decoderRejectsExactlyTheOtherOpcodes : Obligations.DecoderRejectsExactlyTheOtherOpcodes := by
  refine ⟨fun op rest => decode_eq_unsupportedOpcode_iff.trans lookupOpcode_eq_none_iff,
    fun op b1 b2 rest hop => ?_,
    length_filter_unsupported⟩
  cases hrow : lookupOpcode op with
  | none => exact absurd hop (lookupOpcode_eq_none_iff.mp hrow)
  | some row => exact decode_ok_of_lookupOpcode hrow b1 b2 rest

/-- Settles O4: each word is evaluated by the decoder. -/
theorem wordsOfTheOpcodeMapDecode : Obligations.WordsOfTheOpcodeMapDecode := by
  unfold Obligations.WordsOfTheOpcodeMapDecode
  decide

end Sys2Proof
end

section
/-! PROOFS. What every instruction that completes leaves, said once in the form of the instruction
statements (`Completes`): its registers, its reads, its answer, the phase and the ROM size. From it BRK and
NOP (40_system.md R100, R101). -/

namespace Sys2Proof

open Machine

/-- How a completed instruction answers the environment, with its cycle cost (R5, R205, R262). -/
def Instr.answer : Instr → Report
  | .brk => .halt 7
  | .nop | .ldaImm _ | .ldxImm _ | .inx | .dex | .sei | .cld | .txs | .tsx | .adcImm _ => .done 2
  | .ldaZp _ | .staZp _ | .jmpAbs _ | .pha => .done 3
  | .ldaAbs _ | .staAbs _ | .pla => .done 4
  | .jsrAbs _ | .rts => .done 6

end Sys2Proof

namespace Sys2Proof.Machine

variable {i : Instr} {s t : State}

@[simp] theorem State.fetched_phase (s : State) (i : Instr) : (s.fetched i).phase = s.phase := rfl

theorem exec_report (h : exec i s = .next t) : t.report = some i.answer := by
  cases i <;> cases h <;> rfl

/-- No meaning changes the run's mark; the stores go through MemWrite, which keeps it (R203, R243). -/
theorem exec_phase (h : exec i s = .next t) : t.phase = s.phase := by
  cases i with
  | staZp | staAbs => cases h; exact memWrite_phase s _ _
  | pha => cases h; exact push8_phase s s.a
  | jsrAbs => cases h; rw [State.setReport_phase, State.setPc_phase, push16_phase]
  | _ => cases h; rfl

/-- The fetched state is the state past the instruction's bytes, but for the step's own record of its
answer and its bus transactions, which no register depends on. -/
theorem registersAfter_fetched (i : Instr) (s : State) :
    registersAfter i (s.fetched i) = registersAfter i (s.past (encode i).length) := by
  cases i <;> rfl

theorem readsAfter_fetched (i : Instr) (s : State) :
    readsAfter i (s.fetched i) = readsAfter i (s.past (encode i).length) := by
  cases i <;> rfl

/-- Every instruction completes, alone and in a step that finds its encoding at PC (R200, R202). -/
theorem completes_encode (i : Instr) :
    Completes i (encode i) (registersAfter i) (readsAfter i) i.answer := by
  constructor
  · intro s
    obtain ⟨t, hexec⟩ := exec_completes i s
    obtain ⟨hregisters, hreads, hprgSize⟩ := exec_leaves hexec
    exact ⟨t, hexec, hregisters, hreads, exec_report hexec, exec_phase hexec, hprgSize⟩
  · intro s hrun hat
    obtain ⟨t, hstep, hexec⟩ := step_completes_of_bytesAt hrun hat
    obtain ⟨hregisters, hreads, hprgSize⟩ := exec_leaves hexec
    rw [registersAfter_fetched] at hregisters
    rw [readsAfter_fetched] at hreads
    have hphase : t.phase = s.phase := (exec_phase hexec).trans (s.fetched_phase i)
    exact ⟨t, hstep, hregisters, hreads, exec_report hexec, hphase, hprgSize⟩

/-- Settles O10: what BRK leaves, with Break the one flag that its update of P sets. -/
theorem brkSetsBreakAndHalts : Obligations.BrkSetsBreakAndHalts :=
  completes_encode .brk

/-- Settles O11: NOP leaves the fetched state, and has no data transaction behind the read of its byte. -/
theorem nopHasNoEffect : Obligations.NopHasNoEffect := by
  refine ⟨completes_encode .nop, fun s hrun hat => ?_⟩
  obtain ⟨t, hstep, hbus⟩ := stepsMakeExactlyTheseBusTransactions s .nop hrun hat
  have hop : s.peek s.pc = 0xEA := hat.1
  have hfetch : t.bus = [.read s.pc (s.peek s.pc)] := hbus
  exact ⟨t, hstep, hop ▸ hfetch⟩

end Sys2Proof.Machine
end

section
/-! PROOFS. The loads and stores (41_load_store.md R110 to R117), each from what its instruction leaves when
it completes; the loads' Z and N in the specification's numbers (00_scope.md R10). -/

namespace Sys2Proof.Machine

/-- The specification describes a byte in numbers; the model tests it for zero and takes its bit 7 (R10). -/
theorem setZN_eq_describing (v : Byte) (p : Status) : p.setZN v = describing v p := by
  have hzero : (v == 0) = decide (v.toNat = 0) := by
    rw [beq_eq_decide, decide_eq_decide]
    exact BitVec.toNat_inj.symm
  have hnegative : v.getLsbD 7 = decide (128 ≤ v.toNat) :=
    (BitVec.msb_eq_getLsbD_last v).symm.trans (BitVec.msb_eq_decide v)
  rw [Status.setZN, describing, hzero, hnegative]

/-- LDA absolute is encoded with the two bytes of its address, low byte first (R84, R112). -/
theorem encode_ldaAbs_absWord (lo hi : Byte) : encode (.ldaAbs (absWord lo hi)) = [0xAD, lo, hi] := by
  simp [encode, absWord_eq_wordOf]

/-- Settles O13: the specification's number for the operand is the model's zero-page address. -/
theorem ldaZeroPageLoadsFromPageZero : Obligations.LdaZeroPageLoadsFromPageZero := by
  intro zp
  simp only [← setZN_eq_describing, ofNat_toNat_eq_zeroPageAddr]
  exact completes_encode (.ldaZp zp)

/-- Settles O14: the two operand bytes are those of the address that the load reads. -/
theorem ldaAbsoluteLoadsFromTheAddress : Obligations.LdaAbsoluteLoadsFromTheAddress := by
  intro lo hi
  simp only [← setZN_eq_describing, ← encode_ldaAbs_absWord]
  exact completes_encode (.ldaAbs (absWord lo hi))

/-- Settles O15: what the store leaves already speaks of every mirror of the cell. -/
theorem staZeroPageStoresInPageZero : Obligations.StaZeroPageStoresInPageZero :=
  fun zp => completes_encode (.staZp zp)

/-- Settles O16: the two operand bytes are those of the address, on either side of 0x2000. -/
theorem staAbsoluteStoresAtTheAddress : Obligations.StaAbsoluteStoresAtTheAddress := by
  intro lo hi
  rw [← encode_staAbs_absWord]
  exact completes_encode (.staAbs (absWord lo hi))

/-- Settles O12: what the load leaves, with its Z and N in the specification's numbers. -/
theorem ldaImmediateLoadsTheConstant : Obligations.LdaImmediateLoadsTheConstant := by
  intro imm
  simp only [← setZN_eq_describing]
  exact completes_encode (.ldaImm imm)

/-- Settles O17: as for LDA immediate, with X for A. -/
theorem ldxImmediateLoadsTheConstant : Obligations.LdxImmediateLoadsTheConstant := by
  intro imm
  simp only [← setZN_eq_describing]
  exact completes_encode (.ldxImm imm)

end Sys2Proof.Machine
end

section
/-! PROOFS. INX and DEX (42_increment.md R130, R131), each from what its instruction leaves when it
completes; the model adds and subtracts in bytes, the specification in numbers modulo 256. -/

namespace Sys2Proof.Machine

/-- The specification's `(X + 1) mod 256` is the model's byte sum (R130). -/
theorem ofNat_add_one_mod (v : Byte) : BitVec.ofNat 8 ((v.toNat + 1) % 256) = v + 1 := by
  rw [← BitVec.toNat_inj, BitVec.toNat_ofNat, BitVec.toNat_add]
  exact Nat.mod_mod _ 256

/-- Subtracting one is adding 255 modulo 256 (R131). -/
theorem ofNat_add_255_mod (v : Byte) : BitVec.ofNat 8 ((v.toNat + 255) % 256) = v - 1 := by
  rw [← BitVec.toNat_inj, BitVec.toNat_ofNat, BitVec.toNat_sub, Nat.add_comm v.toNat]
  exact Nat.mod_mod _ 256

/-- The last value that Z and N describe is the one they show (R10). -/
theorem Status.setZN_setZN (p : Status) (v w : Byte) : (p.setZN v).setZN w = p.setZN w := rfl

/-- The decrement takes X back, and its Z and N replace those of the increment (R131). -/
theorem registers_inx_dex {s t u : State} (hinx : exec .inx s = .next t)
    (hdex : exec .dex t = .next u) :
    u.toRegisters = { s.toRegisters with p := describing s.x s.p } := by
  have ht : t.toRegisters = { s.toRegisters with x := s.x + 1, p := s.p.setZN (s.x + 1) } :=
    (exec_leaves hinx).registers
  have hu : u.toRegisters = { t.toRegisters with x := t.x - 1, p := t.p.setZN (t.x - 1) } :=
    (exec_leaves hdex).registers
  rw [hu, ht, BitVec.add_sub_cancel, Status.setZN_setZN, ← setZN_eq_describing]

/-- Settles O19: what DEX leaves, with X and its description in the specification's numbers; and the two
instructions one after the other. -/
theorem dexDecrementsX : Obligations.DexDecrementsX := by
  constructor
  · simp only [ofNat_add_255_mod, ← setZN_eq_describing]
    exact completes_encode .dex
  · intro s
    obtain ⟨t, hinx⟩ := exec_completes .inx s
    obtain ⟨u, hdex⟩ := exec_completes .dex t
    exact ⟨t, u, hinx, hdex, registers_inx_dex hinx hdex⟩

/-- Settles O18: as for DEX, with the sum for the difference. -/
theorem inxIncrementsX : Obligations.InxIncrementsX := by
  unfold Obligations.InxIncrementsX
  simp only [ofNat_add_one_mod, ← setZN_eq_describing]
  exact completes_encode .inx

end Sys2Proof.Machine
end

section
/-! PROOFS. The control transfers JMP, JSR and RTS (43_control.md R140 to R144), each from what its
instruction leaves when it completes; the round trip from the inverse of Push16 and Pop16. -/

namespace Sys2Proof.Machine

/-! ### Operands and the return address in the specification's numbers -/

/-- JMP absolute is encoded with the two bytes of its target, low byte first (R84, R140). -/
theorem encode_jmpAbs_absWord (lo hi : Byte) : encode (.jmpAbs (absWord lo hi)) = [0x4C, lo, hi] := by
  simp [encode, absWord_eq_wordOf]

/-- JSR absolute is encoded with the two bytes of its target, low byte first (R84, R141). -/
theorem encode_jsrAbs_absWord (lo hi : Byte) : encode (.jsrAbs (absWord lo hi)) = [0x20, lo, hi] := by
  simp [encode, absWord_eq_wordOf]

/-- Two moves of SP down by one are one move by two, with the same wrap-around (R11, R13). -/
theorem sp_sub_one_sub_one (sp : Byte) : sp - 1 - 1 = sp - 2 := by
  bv_omega

/-- The specification's `(PC - 1) mod 65536` is the model's word difference (R141). -/
theorem add_65535_mod_eq_toNat_sub_one (w : Word) : (w.toNat + 65535) % 65536 = (w - 1).toNat := by
  rw [BitVec.toNat_sub, Nat.add_comm w.toNat]
  rfl

/-- The low byte of a word is its remainder by 256 (R6). -/
theorem ofNat_mod_eq_loByte (w : Word) : BitVec.ofNat 8 (w.toNat % 256) = loByte w := by
  rw [← loByte_toNat, BitVec.ofNat_toNat, BitVec.setWidth_eq]

/-! ### The three instructions -/

/-- Settles O21: the two stores of Push16 are those of the return address's bytes in numbers. -/
theorem jsrPushesTheReturnAddress : Obligations.JsrPushesTheReturnAddress := by
  intro lo hi
  simp only [add_65535_mod_eq_toNat_sub_one, ofNat_div_eq_hiByte, ofNat_mod_eq_loByte,
    ← sp_sub_one_sub_one, ← encode_jsrAbs_absWord]
  exact completes_encode (.jsrAbs (absWord lo hi))

/-- Settles O22: what RTS leaves, with its two moves of SP taken together. -/
theorem rtsReturnsPastThePoppedWord : Obligations.RtsReturnsPastThePoppedWord := by
  unfold Obligations.RtsReturnsPastThePoppedWord
  simp only [absWord_eq_wordOf, ← sp_add_one_add_one]
  exact completes_encode .rts

/-- Settles O20: the two operand bytes are those of the target. -/
theorem jmpLoadsPc : Obligations.JmpLoadsPc := by
  intro lo hi
  rw [← encode_jmpAbs_absWord]
  exact completes_encode (.jmpAbs (absWord lo hi))

/-! ### The round trip -/

section RoundTrip

variable {target : Word} {s t : State} (h : Leaves (.jsrAbs target) s t)
include h

/-- JSR leaves SP where two increments take it back (R144). -/
theorem Leaves.sp_add_two_of_jsr : t.sp + 1 + 1 = s.sp := by
  have hsp : t.sp = s.sp - 1 - 1 := congrArg Registers.sp h.registers
  rw [hsp, BitVec.sub_add_cancel, BitVec.sub_add_cancel]

/-- The two bytes above the SP that JSR leaves are those of its return address, PC - 1 (R141, R144). -/
theorem Leaves.stacked_word_of_jsr :
    wordOf (t.peek (stackAddr (t.sp + 1))) (t.peek (stackAddr (t.sp + 1 + 1))) = s.pc - 1 := by
  have hsp : t.sp = (push16 (s.pc - 1) s).sp :=
    (congrArg Registers.sp h.registers).trans (push16_sp s _).symm
  have hpeek : t.peek = (push16 (s.pc - 1) s).peek :=
    funext fun a => (h.reads a).trans (push16_peek s _ a).symm
  rw [hsp, hpeek, ← pop16_fst, pop16_push16_fst]

end RoundTrip

/-- Settles O23: RTS adds one to the stacked word, the address of the JSR's last byte, and takes back the
two decrements of SP. -/
theorem jsrThenRtsReturnsBehindTheJsr : Obligations.JsrThenRtsReturnsBehindTheJsr := by
  intro s lo hi hrun hat
  rw [← encode_jsrAbs_absWord] at hat
  obtain ⟨t, hjsr, hexec⟩ := step_completes_of_bytesAt hrun hat
  have hcall := exec_leaves hexec
  refine ⟨t, hjsr, congrArg Registers.pc hcall.registers, fun u hrun' hsp hlo hhi hat' => ?_⟩
  obtain ⟨v, hrts, hexec'⟩ := step_completes_of_bytesAt (i := .rts) hrun' hat'
  have hreturn := (exec_leaves hexec').registers
  refine ⟨v, hrts, ?_, ?_⟩
  · rw [← sp_add_one_add_one] at hhi
    calc v.pc
        = wordOf (u.peek (stackAddr (u.sp + 1))) (u.peek (stackAddr (u.sp + 1 + 1))) + 1 :=
          congrArg Registers.pc hreturn
      _ = (s.fetched (.jsrAbs (absWord lo hi))).pc - 1 + 1 := by
          rw [hsp, hlo, hhi, hcall.stacked_word_of_jsr]
      _ = s.pc + 3 := BitVec.sub_add_cancel _ _
  · calc v.sp = u.sp + 1 + 1 := congrArg Registers.sp hreturn
      _ = s.sp := by rw [hsp]; exact hcall.sp_add_two_of_jsr

end Sys2Proof.Machine
end

section
/-! PROOFS. The flag instructions SEI and CLD (44_flags.md R150, R151), each from what its instruction leaves
when it completes, with its update of P written as the one flag that it changes. -/

namespace Sys2Proof.Machine

/-- Settles O24: the update of P that SEI makes sets I and no other flag. -/
theorem seiSetsInterruptDisable : Obligations.SeiSetsInterruptDisable := by
  unfold Obligations.SeiSetsInterruptDisable
  simp only [← Status.setI_eq]
  exact completes_encode .sei

/-- Settles O25: the update of P that CLD makes clears D and no other flag. -/
theorem cldClearsDecimal : Obligations.CldClearsDecimal := by
  unfold Obligations.CldClearsDecimal
  simp only [← Status.clearD_eq]
  exact completes_encode .cld

end Sys2Proof.Machine
end

section
/-! PROOFS. The transfers and the stack instructions TXS, TSX, PHA and PLA (45_transfer_stack.md R160 to
R163), each from what its instruction leaves when it completes; PHA and then PLA from the stack cell that
both designate. -/

namespace Sys2Proof.Machine

/-- Settles O28: what PHA leaves is one store in the stack page and one decrement of SP. -/
theorem phaPushesA : Obligations.PhaPushesA :=
  completes_encode .pha

/-- PLA's increment of SP leads back to the cell that PHA stored A in (R163). -/
theorem registers_pha_pla {s t u : State} (hpha : exec .pha s = .next t)
    (hpla : exec .pla t = .next u) :
    u.toRegisters = { s.toRegisters with p := describing s.a s.p } := by
  obtain ⟨ht, hreads, -⟩ := exec_leaves hpha
  have hdecremented : t.sp = s.sp - 1 := congrArg Registers.sp ht
  have hsp : t.sp + 1 = s.sp := by rw [hdecremented, BitVec.sub_add_cancel]
  have hcell : t.peek (stackAddr s.sp) = s.a :=
    (hreads _).trans (afterStore_same ((sameRamCell_stack _ _).mpr rfl) _)
  have hu : u.toRegisters = { t.toRegisters with
      a := t.peek (stackAddr (t.sp + 1))
      sp := t.sp + 1
      p := t.p.setZN (t.peek (stackAddr (t.sp + 1))) } :=
    (exec_leaves hpla).registers
  rw [hu, hsp, hcell, ht, setZN_eq_describing]
  rfl

/-- Settles O29: what PLA leaves, with Z and N in the specification's numbers; and PHA and PLA one after
the other. -/
theorem plaPullsA : Obligations.PlaPullsA := by
  constructor
  · simp only [← setZN_eq_describing]
    exact completes_encode .pla
  · intro s
    obtain ⟨t, hpha⟩ := exec_completes .pha s
    obtain ⟨u, hpla⟩ := exec_completes .pla t
    exact ⟨t, u, hpha, hpla, registers_pha_pla hpha hpla⟩

/-- Settles O26: what TXS leaves is SP, with P as it was. -/
theorem txsCopiesXWithoutFlags : Obligations.TxsCopiesXWithoutFlags :=
  completes_encode .txs

/-- Settles O27: what TSX leaves, with its Z and N in the specification's numbers. -/
theorem tsxCopiesSp : Obligations.TsxCopiesSp := by
  unfold Obligations.TsxCopiesSp
  simp only [← setZN_eq_describing]
  exact completes_encode .tsx

end Sys2Proof.Machine
end

section
/-! PROOFS. ADC (46_arithmetic.md R170 to R173): the wide sum in the specification's numbers, what it keeps
in A and C, and V as the signed sum leaving its range; the statements follow from what ADC leaves when it
completes. -/

namespace Sys2Proof.Machine

/-! ### The wide sum -/

/-- The specification counts the carry by a conditional (R170). -/
theorem adcSum_eq_add_ite (a m : Byte) (c : Bool) :
    adcSum a m c = a.toNat + m.toNat + (if c then 1 else 0) := by
  cases c <;> rfl

/-- The specification's `sum mod 256` is the model's truncation to a byte (R170). -/
theorem ofNat_mod_256 (n : Nat) : BitVec.ofNat 8 (n % 256) = BitVec.ofNat 8 n := by
  rw [← BitVec.toNat_inj, BitVec.toNat_ofNat, BitVec.toNat_ofNat]
  exact Nat.mod_mod n 256

/-- The byte and the carry hold the whole of the wide sum, which is at most 511 (R170, R173). -/
theorem adcSum_low_add_carry (a m : Byte) (c : Bool) :
    (BitVec.ofNat 8 (adcSum a m c)).toNat + 256 * (decide (255 < adcSum a m c)).toNat =
      adcSum a m c := by
  have hle := adcSum_le a m c
  rw [BitVec.toNat_ofNat]
  by_cases hcarry : 255 < adcSum a m c
  · rw [decide_eq_true hcarry, Bool.toNat_true]; omega
  · rw [decide_eq_false hcarry, Bool.toNat_false]; omega

/-! ### The signed sum -/

/-- Bit 7, the N of `SetZN`, in the specification's numbers (R10). -/
theorem getLsbD_seven_eq_decide (v : Byte) : v.getLsbD 7 = decide (128 ≤ v.toNat) :=
  congrArg Status.n (setZN_eq_describing v Status.afterReset)

/-- The formula of R172 tests that the sign of the result is neither operand's. -/
theorem adcOverflow_eq_signs (a m : Byte) (sum : Nat) :
    adcOverflow a m sum =
      decide ((128 ≤ a.toNat ↔ 128 ≤ m.toNat) ∧ (128 ≤ a.toNat ↔ ¬128 ≤ sum % 256)) := by
  rw [adcOverflow, BitVec.getLsbD_and, BitVec.getLsbD_xor, BitVec.getLsbD_xor,
    getLsbD_seven_eq_decide, getLsbD_seven_eq_decide, getLsbD_seven_eq_decide, BitVec.toNat_ofNat]
  by_cases ha : 128 ≤ a.toNat
  · by_cases hr : 128 ≤ sum % 256
    · simp [ha, hr]
    · simp [ha, hr]
  · by_cases hr : 128 ≤ sum % 256
    · simp [ha, hr, ← decide_not]
    · simp [ha, hr]

/-- The formula of R172 says that the signed sum of the operands and the carry is no signed byte: the sum
can only leave the range on the side of two operands of one sign, and then the result has the other. -/
theorem adcOverflow_adcSum (a m : Byte) (c : Bool) :
    adcOverflow a m (adcSum a m c) =
      decide (a.toInt + m.toInt + c.toNat < -128 ∨ 127 < a.toInt + m.toInt + c.toNat) := by
  have ha := a.isLt
  have hm := m.isLt
  have hc : c.toNat ≤ 1 := Bool.toNat_le c
  rw [adcOverflow_eq_signs, decide_eq_decide, BitVec.toInt_eq_toNat_cond,
    BitVec.toInt_eq_toNat_cond, adcSum]
  by_cases hna : 2 * a.toNat < 2 ^ 8
  · rw [if_pos hna]
    by_cases hnm : 2 * m.toNat < 2 ^ 8
    · rw [if_pos hnm]; omega
    · rw [if_neg hnm]; omega
  · rw [if_neg hna]
    by_cases hnm : 2 * m.toNat < 2 ^ 8
    · rw [if_pos hnm]; omega
    · rw [if_neg hnm]; omega

/-! ### The statements -/

/-- Settles O31: what ADC leaves, with the sum and the description of A in the specification's numbers. -/
theorem adcAddsWithCarry : Obligations.AdcAddsWithCarry := by
  intro imm
  simp only [ofNat_mod_256, ← adcSum_eq_add_ite, ← setZN_eq_describing]
  exact completes_encode (.adcImm imm)

/-- Settles O32: A and C are the two parts of the wide sum. -/
theorem adcLosesNothing : Obligations.AdcLosesNothing := by
  intro imm s
  obtain ⟨t, hexec⟩ := exec_completes (.adcImm imm) s
  refine ⟨t, hexec, ?_⟩
  rw [(exec_leaves hexec).registers]
  exact adcSum_low_add_carry s.a imm s.p.c

/-- Settles O34: both readings leave the same but for V, which the second takes from the formula. -/
theorem adcModesDifferInOverflowAlone : Obligations.AdcModesDifferInOverflowAlone := by
  intro imm s
  obtain ⟨t, hexec⟩ := exec_completes (.adcImm imm) s
  refine ⟨⟨t, hexec, (exec_leaves hexec).registers⟩, rfl, ?_⟩
  rw [← adcOverflow_adcSum]
  rfl

/-- Settles O33: neither the sum nor a flag that ADC writes depends on D, and ADC stores nothing. -/
theorem decimalFlagDoesNotChangeAdc : Obligations.DecimalFlagDoesNotChangeAdc := by
  intro imm s
  obtain ⟨t, ht⟩ := exec_completes (.adcImm imm) { s with p := { s.p with d := false } }
  obtain ⟨u, hu⟩ := exec_completes (.adcImm imm) { s with p := { s.p with d := true } }
  obtain ⟨htregs, htreads, -⟩ := exec_leaves ht
  obtain ⟨huregs, hureads, -⟩ := exec_leaves hu
  refine ⟨t, u, ht, hu, ?_, ?_, fun a => ?_⟩
  · rw [htregs]; rfl
  · rw [huregs, htregs]; rfl
  · rw [hureads, htreads]; rfl

end Sys2Proof.Machine
end

section
/-! PROOFS. The outcomes of a step (60_exceptions.md R200 to R206): a running machine runs the instruction
that the bytes at PC decode to, with the answer of R262, or ends in UnsupportedOpcode; every other machine
refuses the step until a reset (R203, R243). -/

namespace Sys2Proof

open Machine

/-- The instructions that signal halt are BRK alone (R205). -/
theorem Instr.answer_eq_halt_iff (i : Instr) :
    (∃ c, some i.answer = some (.halt c)) ↔ i.opcode = 0x00 := by
  cases i with
  | brk => exact ⟨fun _ => rfl, fun _ => ⟨7, rfl⟩⟩
  | _ => simp [Instr.answer, Instr.opcode, encode]

/-- The answer that a row of the opcode map announces: its Cycles column, as a halt for BRK (R87, R262). -/
def OpcodeRow.answer (row : OpcodeRow) : Report :=
  if row.opcode = 0x00 then .halt row.cycles else .done row.cycles

/-- Every instruction answers as the row of its opcode announces. -/
theorem Instr.answer_lookup (i : Instr) :
    (lookupOpcode i.opcode).map OpcodeRow.answer = some i.answer := by
  cases i <;> rfl

end Sys2Proof

namespace Sys2Proof.Machine

variable {i : Instr} {s t left : State} {op : Byte}

/-! ### A supported opcode -/

/-- Bytes that stand at an address begin with any bytes that begin them. -/
theorem State.BytesAt.of_append {front back : List Byte} :
    ∀ {addr : Word}, s.BytesAt addr (front ++ back) → s.BytesAt addr front := by
  induction front with
  | nil => exact fun _ => trivial
  | cons b bs ih => exact fun h => ⟨h.1, ih h.2⟩

/-- The three bytes at PC hold the encoding of the instruction they decode to (R80, R87). -/
theorem bytesAt_encode_of_decode {rest : List Byte}
    (h : decode [s.peek s.pc, s.peek (s.pc + 1), s.peek (s.pc + 2)] = .ok i rest) :
    s.BytesAt s.pc (encode i) := by
  have hthree : s.BytesAt s.pc [s.peek s.pc, s.peek (s.pc + 1), s.peek (s.pc + 2)] :=
    ⟨rfl, rfl, congrArg s.peek (BitVec.add_assoc s.pc 1 1), trivial⟩
  rw [eq_encode_append_of_decode_ok h] at hthree
  exact hthree.of_append

/-- Settles O5: the decoded bytes are the instruction's encoding, and a step runs the encoding at PC. -/
theorem stepRunsTheDecodedInstruction : Obligations.StepRunsTheDecodedInstruction :=
  fun _ _ _ hrun hdecode => step_of_bytesAt hrun (bytesAt_encode_of_decode hdecode)

/-- Where a supported opcode stands a step completes, with the answer of the opcode's instruction, and the
machine still runs (R202, R262). -/
theorem step_completes_of_supported (hrun : s.Running) (hop : s.peek s.pc ∈ supportedOpcodes) :
    ∃ (i : Instr) (t : State), s.peek s.pc = i.opcode ∧ step s = .next t ∧
      t.report = some i.answer ∧ t.Running := by
  cases hrow : lookupOpcode (s.peek s.pc) with
  | none => exact absurd hop (lookupOpcode_eq_none_iff.mp hrow)
  | some row =>
    obtain ⟨i, rest, hdecode⟩ :=
      decode_ok_of_lookupOpcode hrow (s.peek (s.pc + 1)) (s.peek (s.pc + 2)) []
    obtain ⟨t, hstep, hexec⟩ := step_completes_of_bytesAt hrun (bytesAt_encode_of_decode hdecode)
    exact ⟨i, t, opcode_of_decode_ok hdecode, hstep, exec_report hexec, (exec_phase hexec).trans hrun⟩

/-! ### Any other opcode -/

/-- The state that UnsupportedOpcode leaves behind: the opcode byte is read and PC is past it, nothing is
reported, and the run is marked faulted (R201, R203). -/
def State.leftByFault (s : State) : State := (fetch8 s.begin).2.setPhase .faulted

theorem step_faults_of_unsupported (hrun : s.Running) (hop : s.peek s.pc ∉ supportedOpcodes) :
    step s = .fault (.unsupportedOpcode (s.peek s.pc) s.leftByFault) := by
  have hfetch := fetchInstruction_unsupported (s := s.begin) (lookupOpcode_eq_none_iff.mpr hop)
  rw [step_running hrun, hfetch]
  rfl

/-! ### A machine that does not run -/

theorem step_faulted (h : s.phase = .faulted) : step s = .refused .stepAfterFault := by
  rw [step, h]; rfl

theorem step_notReset (h : s.phase = .notReset) : step s = .refused .stepBeforeReset := by
  rw [step, h]; rfl

/-! ### The statements -/

/-- Every fault of a step leaves the one state that UnsupportedOpcode does (R201). -/
theorem eq_leftByFault_of_step (h : step s = .fault (.unsupportedOpcode op left)) :
    left = s.leftByFault := by
  cases hphase : s.phase with
  | notReset => rw [step_notReset hphase] at h; cases h
  | faulted => rw [step_faulted hphase] at h; cases h
  | running =>
    by_cases hop : s.peek s.pc ∈ supportedOpcodes
    · obtain ⟨i, t, -, hstep, -⟩ := step_completes_of_supported hphase hop
      rw [hstep] at h; cases h
    · rw [step_faults_of_unsupported hphase hop] at h; cases h; rfl

/-- Settles O7: a supported opcode's instruction completes, any other opcode faults. -/
theorem stepCompletesExactlyOnSupportedOpcodes :
    Obligations.StepCompletesExactlyOnSupportedOpcodes := by
  refine fun s hrun => ⟨fun hop => ?_, fun hop => ⟨_, step_faults_of_unsupported hrun hop⟩⟩
  obtain ⟨i, t, -, hstep, -, ht⟩ := step_completes_of_supported hrun hop
  exact ⟨t, hstep, ht⟩

/-- Settles O8: the fault leaves the state after the fetch of one byte. -/
theorem unsupportedOpcodeLeavesOnlyPcAdvanced : Obligations.UnsupportedOpcodeLeavesOnlyPcAdvanced :=
  fun _ hrun hop =>
    ⟨_, step_faults_of_unsupported hrun hop, rfl, fun _ => rfl, rfl, rfl, rfl⟩

/-- Reset is accepted in every phase (R241). -/
theorem applyReset_running (s : State) : (applyReset s).Running := rfl

/-- Settles O9: a fault leaves a machine marked faulted, which like one never reset refuses the step. -/
theorem stepIsRefusedUntilReset : Obligations.StepIsRefusedUntilReset := by
  refine ⟨fun s left op hstep => ⟨step_faulted ?_, applyReset_running left⟩,
    fun s hphase => ⟨step_notReset hphase, applyReset_running s⟩⟩
  rw [eq_leftByFault_of_step hstep]
  rfl

/-- A completed step's answer is that of the instruction whose opcode stands at PC, and the machine still
runs. -/
theorem step_next_answer (h : step s = .next t) :
    (∃ i : Instr, s.peek s.pc = i.opcode ∧ t.report = some i.answer) ∧ t.Running := by
  obtain ⟨i, hop, hexec⟩ := step_next_exec h
  exact ⟨⟨i, hop, exec_report hexec⟩, (exec_phase hexec).trans (step_next_cases h).1⟩

/-- Settles O35: the answer is that of the opcode's instruction, and BRK's alone is a halt. -/
theorem haltIsReportedExactlyByBrk : Obligations.HaltIsReportedExactlyByBrk := by
  intro s t hstep
  obtain ⟨⟨i, hop, hreport⟩, ht⟩ := step_next_answer hstep
  rw [hop, hreport]
  refine ⟨i.answer_eq_halt_iff, fun hbrk => ?_, ht⟩
  have hrow := i.answer_lookup
  rw [hbrk] at hrow
  exact hrow.symm

/-- Where an opcode stands whose row announces the answer `r`, a step answers `r`. -/
theorem step_answers {ops : List Byte} {r : Report}
    (hops : ∀ op ∈ ops, (lookupOpcode op).map OpcodeRow.answer = some r) (hrun : s.Running)
    (hop : s.peek s.pc ∈ ops) : ∃ t, step s = .next t ∧ t.report = some r := by
  have hrow := hops _ hop
  have hsupported : s.peek s.pc ∈ supportedOpcodes := by
    by_contra hnot
    rw [lookupOpcode_eq_none_iff.mpr hnot] at hrow
    cases hrow
  obtain ⟨i, t, hi, hstep, hreport, -⟩ := step_completes_of_supported hrun hsupported
  rw [hi, i.answer_lookup] at hrow
  exact ⟨t, hstep, hreport.trans hrow⟩

theorem step_brk (hrun : s.Running) (hop : s.peek s.pc = 0x00) :
    ∃ t, step s = .next t ∧ t.report = some (.halt 7) :=
  step_answers (ops := [0x00]) (by decide) hrun (List.mem_singleton.mpr hop)

/-- Settles O44: each class of opcodes by the Cycles column of its rows; the state a fault leaves reports
nothing. -/
theorem stepsReportTheirCycleCost : Obligations.StepsReportTheirCycleCost := by
  refine fun s hrun => ⟨step_brk hrun, step_answers (by decide) hrun, step_answers (by decide) hrun,
    step_answers (by decide) hrun, step_answers (by decide) hrun, fun op left hstep => ?_⟩
  rw [eq_leftByFault_of_step hstep]
  rfl

end Sys2Proof.Machine
end

section
/-! PROOFS. The model's convention for a placed word (log entry 6): three bytes placed from a fetch home on
stand there, since no address of the home lies in the empty window and no two of them are one cell. -/

namespace Sys2Proof.Machine

variable (s : State)

/-! ### Placing bytes -/

@[simp] theorem State.place_toRegisters (addr : Word) (v : Byte) :
    (s.place addr v).toRegisters = s.toRegisters := by
  unfold State.place; split_ifs <;> rfl
@[simp] theorem State.place_phase (addr : Word) (v : Byte) : (s.place addr v).phase = s.phase := by
  unfold State.place; split_ifs <;> rfl
@[simp] theorem State.place_prgSize (addr : Word) (v : Byte) :
    (s.place addr v).prgSize = s.prgSize := by
  unfold State.place; split_ifs <;> rfl

/-- Outside the empty window a byte placed is read back. -/
theorem State.place_peek_same {addr : Word} (h : inEmptyWindow addr = false) (v : Byte) :
    (s.place addr v).peek addr = v := by
  simp only [inEmptyWindow, Bool.and_eq_false_iff, decide_eq_false_iff_not, not_le, not_lt] at h
  rcases h with h | h
  · simp only [State.place, if_pos h, peek_ram _ h, Memory.read_write, ramCell, if_true]
  · have hram : ¬addr.toNat < 0x2000 := by omega
    have hwindow : ¬addr.toNat < 0x8000 := by omega
    simp only [State.place, if_neg hram, if_neg hwindow, peek_rom _ h, Memory.read_write, if_true]

/-- A byte is placed in no other cell: neither in another cell of RAM nor in another byte of the ROM. -/
theorem State.place_peek_other {addr a : Word} (hram : ¬SameRamCell addr a)
    (hrom : 0x8000 ≤ addr.toNat → 0x8000 ≤ a.toNat → romIndex s.prgSize a ≠ romIndex s.prgSize addr)
    (v : Byte) : (s.place addr v).peek a = s.peek a := by
  unfold State.place
  split_ifs with h h'
  · by_cases ha : a.toNat < 0x2000
    · have hcell : a.toNat % 0x800 ≠ addr.toNat % 0x800 := fun hcell => hram ⟨h, ha, hcell⟩
      rw [peek_ram _ ha, peek_ram _ ha, Memory.read_write, ramCell, if_neg hcell]
    · simp only [State.peek, if_neg ha]
  · rfl
  · by_cases ha : 0x8000 ≤ a.toNat
    · rw [peek_rom _ ha, peek_rom _ ha, Memory.read_write, if_neg (hrom (by omega) ha)]
    · simp only [State.peek, if_pos (Nat.not_le.mp ha)]

/-- Addresses less than 0x800 apart are no two mirrors of one cell, so a byte placed at the later one
leaves the earlier one, also where the addresses wrap. -/
theorem State.place_peek_before {k : Nat} (hpos : 0 < k) (hk : k < 0x800) (addr : Word) (v : Byte) :
    (s.place (addr + BitVec.ofNat 16 k) v).peek addr = s.peek addr := by
  have haddr := addr.isLt
  have hlater : (addr + BitVec.ofNat 16 k).toNat = (addr.toNat + k) % 65536 := by
    rw [BitVec.toNat_add, BitVec.toNat_ofNat]; omega
  refine s.place_peek_other ?_ ?_ v
  · rintro ⟨h, h', hcell⟩
    omega
  · intro h h' hindex
    cases hsize : s.prgSize with
    | kib16 => rw [hsize, romIndex_kib16, romIndex_kib16] at hindex; omega
    | kib32 => rw [hsize, romIndex_kib32, romIndex_kib32] at hindex; omega

/-! ### Placing an instruction's bytes -/

theorem State.placeBytes_toRegisters (bytes : List Byte) : ∀ (s : State) (addr : Word),
    (s.placeBytes addr bytes).toRegisters = s.toRegisters := by
  induction bytes with
  | nil => exact fun _ _ => rfl
  | cons b bs ih => exact fun s addr => (ih _ _).trans (s.place_toRegisters addr b)

theorem State.placeBytes_phase (bytes : List Byte) : ∀ (s : State) (addr : Word),
    (s.placeBytes addr bytes).phase = s.phase := by
  induction bytes with
  | nil => exact fun _ _ => rfl
  | cons b bs ih => exact fun s addr => (ih _ _).trans (s.place_phase addr b)

theorem State.placeBytes_prgSize (bytes : List Byte) : ∀ (s : State) (addr : Word),
    (s.placeBytes addr bytes).prgSize = s.prgSize := by
  induction bytes with
  | nil => exact fun _ _ => rfl
  | cons b bs ih => exact fun s addr => (ih _ _).trans (s.place_prgSize addr b)

theorem State.placeBytes_peek_before (addr : Word) (bytes : List Byte) :
    ∀ (s : State) (k : Nat), 0 < k → k + bytes.length ≤ 0x800 →
      (s.placeBytes (addr + BitVec.ofNat 16 k) bytes).peek addr = s.peek addr := by
  induction bytes with
  | nil => exact fun _ _ _ _ => rfl
  | cons b bs ih =>
    intro s k hpos hk
    rw [List.length_cons] at hk
    have hnext : addr + BitVec.ofNat 16 k + 1 = addr + BitVec.ofNat 16 (k + 1) := by
      rw [BitVec.ofNat_add]; exact BitVec.add_assoc _ _ _
    rw [State.placeBytes, hnext, ih _ (k + 1) (by omega) (by omega),
      s.place_peek_before hpos (by omega)]

/-- Bytes placed outside the empty window, no more than one mirror of RAM, stand where they are placed. -/
theorem State.bytesAt_placeBytes (bytes : List Byte) :
    ∀ (s : State) (addr : Word), bytes.length ≤ 0x800 →
      (∀ k < bytes.length, inEmptyWindow (addr + BitVec.ofNat 16 k) = false) →
      (s.placeBytes addr bytes).BytesAt addr bytes := by
  induction bytes with
  | nil => exact fun _ _ _ _ => trivial
  | cons b bs ih =>
    intro s addr hlen hwindow
    rw [List.length_cons] at hlen hwindow
    have hhead : inEmptyWindow addr = false := by
      simpa using hwindow 0 (Nat.succ_pos _)
    refine ⟨?_, ih _ _ (by omega) fun k hk => ?_⟩
    · rw [State.placeBytes, show addr + 1 = addr + BitVec.ofNat 16 1 from rfl,
        State.placeBytes_peek_before addr bs _ 1 Nat.one_pos (by omega), s.place_peek_same hhead]
    · have hnext : addr + 1 + BitVec.ofNat 16 k = addr + BitVec.ofNat 16 (k + 1) := by
        rw [Nat.add_comm k 1, BitVec.ofNat_add]; exact BitVec.add_assoc _ _ _
      rw [hnext]
      exact hwindow (k + 1) (by omega)

/-! ### The fetch home -/

/-- None of the three addresses from the fetch home on lies in the empty window: PC stays only where that
is so, and 0x0000 to 0x0002 are RAM. -/
theorem State.fetchHome_outside_window :
    ∀ k < 3, inEmptyWindow (s.fetchHome + BitVec.ofNat 16 k) = false := by
  suffices h : inEmptyWindow s.fetchHome = false ∧ inEmptyWindow (s.fetchHome + 1) = false ∧
      inEmptyWindow (s.fetchHome + 2) = false by
    obtain ⟨h0, h1, h2⟩ := h
    intro k hk
    interval_cases k
    · simpa using h0
    · exact h1
    · exact h2
  unfold State.fetchHome
  split_ifs with h
  · decide
  · simpa only [Bool.not_eq_true, Bool.or_eq_false_iff, and_assoc] using h

section PlacedWord

variable (nbits w : Nat)

theorem State.withFetchWord_toRegisters :
    (s.withFetchWord nbits w).toRegisters = { s.toRegisters with pc := s.fetchHome } :=
  State.placeBytes_toRegisters _ _ _

theorem State.withFetchWord_prgSize : (s.withFetchWord nbits w).prgSize = s.prgSize :=
  State.placeBytes_prgSize _ _ _

theorem State.withFetchWord_running : (s.withFetchWord nbits w).Running :=
  State.placeBytes_phase _ _ _

theorem State.withFetchWord_bytesAt :
    (s.withFetchWord nbits w).BytesAt s.fetchHome (tableWordBytes nbits w) :=
  State.bytesAt_placeBytes _ _ _ (by simp [tableWordBytes]) s.fetchHome_outside_window

end PlacedWord

/-- The decoder reads a table word from its three bytes. -/
theorem decode_of_decodeTableWord {nbits w : Nat} {i : Instr} (h : decodeTableWord nbits w = some i) :
    ∃ rest, decode (tableWordBytes nbits w) = .ok i rest := by
  unfold decodeTableWord at h
  split at h
  next j rest hdecode => cases h; exact ⟨rest, hdecode⟩
  next => cases h
  next => cases h

/-- Settles O6: the word's bytes stand at the fetch home, which is PC, and they are the encoding of the
instruction and what follows it. -/
theorem placedWordIsTheNextInstruction : Obligations.PlacedWordIsTheNextInstruction := by
  intro s nbits w i hword
  obtain ⟨rest, hdecode⟩ := decode_of_decodeTableWord hword
  have hregs := s.withFetchWord_toRegisters nbits w
  have hpc : (s.withFetchWord nbits w).pc = s.fetchHome := congrArg Registers.pc hregs
  have hbytes := s.withFetchWord_bytesAt nbits w
  rw [← hpc, eq_encode_append_of_decode_ok hdecode] at hbytes
  exact ⟨_, rfl, hregs, s.withFetchWord_prgSize nbits w,
    step_of_bytesAt (s.withFetchWord_running nbits w) hbytes.of_append⟩

end Sys2Proof.Machine
end

section
/-! PROOFS. The reference run loop (60_exceptions.md R215 to R217): what one round does, said once, and by
induction on the fuel where and within what budget a run ends. -/

namespace Sys2Proof.Machine

variable {maxSteps : Option Nat} {fuel count : Nat} {s t left : State} {op : Byte} {r : Refusal}

/-! ### One round -/

/-- A spent budget ends the run before anything is executed (D11). -/
theorem runLoop_stopped (hbudget : budgetSpent maxSteps count = true) :
    runLoop maxSteps fuel count s = .stopped count s := by
  cases fuel <;> rw [runLoop, if_pos hbudget]

section Unspent

variable (hbudget : budgetSpent maxSteps count = false)
include hbudget

theorem runLoop_unfinished : runLoop maxSteps 0 count s = .unfinished count s := by
  rw [runLoop, if_neg (ne_true_of_eq_false hbudget)]

theorem runLoop_halted (hbrk : s.peek s.pc = 0x00) (hstep : step s = .next t) :
    runLoop maxSteps (fuel + 1) count s = .halted (count + 1) t := by
  simp [runLoop, hbudget, hbrk, hstep]

theorem runLoop_continues (hbrk : s.peek s.pc ≠ 0x00) (hstep : step s = .next t) :
    runLoop maxSteps (fuel + 1) count s = runLoop maxSteps fuel (count + 1) t := by
  rw [runLoop, if_neg (ne_true_of_eq_false hbudget), if_neg hbrk, hstep]

theorem runLoop_aborted (hstep : step s = .fault (.unsupportedOpcode op left)) :
    runLoop maxSteps (fuel + 1) count s = .aborted op left := by
  simp [runLoop, hbudget, hstep]

theorem runLoop_refused (hstep : step s = .refused r) :
    runLoop maxSteps (fuel + 1) count s = .refused r := by
  simp [runLoop, hbudget, hstep]

end Unspent

/-- Settles O58: a BRK at PC completes, and the round that executes it is the last. -/
theorem runHaltsAfterOneBrk : Obligations.RunHaltsAfterOneBrk := by
  refine fun maxSteps fuel count s hrun hbrk => ⟨fun hbudget => ?_, runLoop_stopped⟩
  obtain ⟨t, hstep, hreport⟩ := step_brk hrun hbrk
  exact ⟨t, hstep, hreport, runLoop_halted hbudget hbrk hstep⟩

/-! ### The budget -/

theorem budgetSpent_some {n : Nat} : budgetSpent (some n) count = decide (n ≤ count) := rfl

/-- How a run ends that begins with `count` steps counted: halted after at least one more step and at most
`n` in all, stopped at `n`, or aborted. -/
def EndsWithin (n count : Nat) (e : RunEnd) : Prop :=
  (∃ c t, e = .halted c t ∧ count + 1 ≤ c ∧ c ≤ n) ∨ (∃ t, e = .stopped n t) ∨
    ∃ op left, e = .aborted op left

/-- One step more on the count only narrows the halts. -/
theorem EndsWithin.of_succ {n count : Nat} {e : RunEnd} (h : EndsWithin n (count + 1) e) :
    EndsWithin n count e :=
  h.imp_left fun ⟨c, t, he, hlow, hhigh⟩ => ⟨c, t, he, by omega, hhigh⟩

/-- A running machine's loop with fuel for the rest of its budget ends within the budget: its machine runs
at every round, so that no step is refused. -/
theorem runLoop_endsWithin {n : Nat} (fuel : Nat) : ∀ (count : Nat) (s : State), s.Running →
    count + fuel = n → EndsWithin n count (runLoop (some n) fuel count s) := by
  induction fuel with
  | zero =>
    intro count s _ hn
    obtain rfl : count = n := hn
    exact .inr (.inl ⟨s, runLoop_stopped (by simp [budgetSpent_some])⟩)
  | succ fuel ih =>
    intro count s hrun hn
    have hbudget : budgetSpent (some n) count = false := by
      rw [budgetSpent_some, decide_eq_false_iff_not]; omega
    by_cases hop : s.peek s.pc ∈ supportedOpcodes
    · obtain ⟨-, t, -, hstep, -, ht⟩ := step_completes_of_supported hrun hop
      by_cases hbrk : s.peek s.pc = 0x00
      · exact .inl ⟨count + 1, t, runLoop_halted hbudget hbrk hstep, le_rfl, by omega⟩
      · rw [runLoop_continues hbudget hbrk hstep]
        exact (ih (count + 1) t ht (by omega)).of_succ
    · exact .inr (.inr ⟨_, _, runLoop_aborted hbudget (step_faults_of_unsupported hrun hop)⟩)

/-- Settles O57: the loop from no step counted, with fuel for the whole budget. -/
theorem runEndsWithinItsBudget : Obligations.RunEndsWithinItsBudget := by
  intro n s hrun
  have h := runLoop_endsWithin n 0 s hrun (Nat.zero_add n)
  rwa [EndsWithin, Nat.zero_add] at h

/-! ### The steps of the core -/

/-- The core's run of one step more is its run from the next state. -/
theorem coreRun_succ {M : Host.Core} {s t : M.State} (hstep : M.step s = .next t) (k : Nat) :
    M.run (k + 1) s = M.run k t := by
  rw [Host.Core.run, hstep]

/-- The run ends halted or stopped, with the count `c`, in the state `t`. -/
def RunEnd.EndsAt (e : RunEnd) (c : Nat) (t : State) : Prop := e = .halted c t ∨ e = .stopped c t

section EndsAt

variable {n c : Nat} {u : State}

@[simp] theorem RunEnd.endsAt_halted : (RunEnd.halted n u).EndsAt c t ↔ n = c ∧ u = t := by
  simp [RunEnd.EndsAt]
@[simp] theorem RunEnd.endsAt_stopped : (RunEnd.stopped n u).EndsAt c t ↔ n = c ∧ u = t := by
  simp [RunEnd.EndsAt]
@[simp] theorem RunEnd.not_endsAt_aborted : ¬(RunEnd.aborted op left).EndsAt c t := by
  simp [RunEnd.EndsAt]
@[simp] theorem RunEnd.not_endsAt_refused : ¬(RunEnd.refused r).EndsAt c t := by
  simp [RunEnd.EndsAt]
@[simp] theorem RunEnd.not_endsAt_unfinished : ¬(RunEnd.unfinished n u).EndsAt c t := by
  simp [RunEnd.EndsAt]

end EndsAt

/-- A loop that begins with its budget spent ends where it begins. -/
theorem coreRun_of_spent {c : Nat} (hbudget : budgetSpent maxSteps count = true)
    (hend : (runLoop maxSteps fuel count s).EndsAt c t) :
    ∃ k, count + k = c ∧ core.run k s = .next t := by
  rw [runLoop_stopped hbudget, RunEnd.endsAt_stopped] at hend
  obtain ⟨rfl, rfl⟩ := hend
  exact ⟨0, rfl, rfl⟩

/-- From `count` steps on, the loop ends where the core is after the steps it counted since. -/
theorem coreRun_of_runLoop_endsAt {c : Nat} (fuel : Nat) : ∀ (count : Nat) (s : State),
    (runLoop maxSteps fuel count s).EndsAt c t → ∃ k, count + k = c ∧ core.run k s = .next t := by
  induction fuel with
  | zero =>
    intro count s hend
    cases hbudget : budgetSpent maxSteps count with
    | true => exact coreRun_of_spent hbudget hend
    | false => simp [runLoop_unfinished hbudget] at hend
  | succ fuel ih =>
    intro count s hend
    cases hbudget : budgetSpent maxSteps count with
    | true => exact coreRun_of_spent hbudget hend
    | false =>
      cases hstep : step s with
      | fault f =>
        obtain ⟨op, left⟩ := f
        simp [runLoop_aborted hbudget hstep] at hend
      | refused r => simp [runLoop_refused hbudget hstep] at hend
      | next u =>
        by_cases hbrk : s.peek s.pc = 0x00
        · rw [runLoop_halted hbudget hbrk hstep, RunEnd.endsAt_halted] at hend
          obtain ⟨rfl, rfl⟩ := hend
          exact ⟨1, rfl, coreRun_succ (M := core) hstep 0⟩
        · rw [runLoop_continues hbudget hbrk hstep] at hend
          obtain ⟨k, hcount, hrun⟩ := ih (count + 1) u hend
          exact ⟨k + 1, by omega, (coreRun_succ (M := core) hstep k).trans hrun⟩

/-- Settles O59: the loop from no step counted. -/
theorem runEndsWhereItsStepsLead : Obligations.RunEndsWhereItsStepsLead := by
  intro maxSteps fuel c s t hend
  obtain ⟨k, hcount, hrun⟩ := coreRun_of_runLoop_endsAt fuel 0 s hend
  rwa [← hcount, Nat.zero_add]

end Sys2Proof.Machine
end

section
/-! PROOFS. Reset and power-on (70_reset_and_hazards.md R240 to R243): what the reset event leaves, that a
machine booted meets both invariants, and the boot behind the model's reset state. -/

namespace Sys2Proof.Machine

/-- Settles O52: reset leaves its registers, and PC is the little-endian word at the vector. -/
theorem resetLoadsTheVector : Obligations.ResetLoadsTheVector := by
  intro s
  refine ⟨applyReset s, rfl, ?_, applyReset_peek s, rfl, rfl, rfl, applyReset_running s⟩
  rw [applyReset_toRegisters, absWord_eq_wordOf]
  rfl

/-- A buffer with a size class has its length (R55). -/
theorem bytes_of_prgSize_ofLength {n : Nat} {size : Config.PrgSize}
    (h : Config.PrgSize.ofLength? n = some size) : size.bytes = n := by
  have hlen : n = 16384 ∨ n = 32768 := by
    by_contra hnot
    obtain ⟨h16, h32⟩ := not_or.mp hnot
    rw [prgSize_ofLength_none h16 h32] at h
    cases h
  obtain ⟨size', hsize', hbytes⟩ := prgSize_of_length hlen
  obtain rfl : size = size' := Option.some.inj (h.symm.trans hsize')
  exact hbytes

/-- The constructed core's RAM is empty, and its PRG buffer is loaded from its first index on. -/
theorem constructed_canonical {prg : List Byte} {size : Config.PrgSize}
    (hsize : size.bytes = prg.length) (a x y : Byte) :
    MemoryCanonical (constructed prg size a x y) := by
  refine ⟨Memory.wf_nil, Memory.below_nil _, Memory.wf_ofBytesFrom prg 0, fun c hc => ?_⟩
  have hindex := (Memory.index_ofBytesFrom prg 0 c hc).2
  rwa [Nat.zero_add, ← hsize] at hindex

/-- A machine that boots is the reset of a constructed core. -/
theorem boot_next_cases {prg : List Byte} {a x y : Byte} {s : State} (h : boot prg a x y = .next s) :
    ∃ size, size.bytes = prg.length ∧ s = applyReset (constructed prg size a x y) := by
  cases hsize : Config.PrgSize.ofLength? prg.length with
  | none => simp [boot, construct, hsize] at h
  | some size =>
    rw [boot_eq_applyReset hsize] at h
    cases h
    exact ⟨size, bytes_of_prgSize_ofLength hsize, rfl⟩

/-- Settles O49: reset keeps the constructed core's memories and gives P and the phase their values. -/
theorem bootMeetsTheInvariants : Obligations.BootMeetsTheInvariants := by
  intro prg a x y s hboot
  obtain ⟨size, hsize, rfl⟩ := boot_next_cases hboot
  exact ⟨applyReset_canonical (constructed_canonical hsize a x y), statusReachable_afterReset,
    applyReset_running _⟩

/-- A buffer of blank bytes is held as the empty memory. -/
theorem Memory.ofBytesFrom_replicate_blank (n : Nat) :
    ∀ start : Nat, Memory.ofBytesFrom start (List.replicate n blankByte) = [] := by
  induction n with
  | zero => exact fun _ => rfl
  | succ n ih =>
    intro start
    rw [List.replicate_succ, Memory.ofBytesFrom, if_pos rfl, ih]

/-- Settles O53: a blank ROM is an empty memory, so its vector and PC are zero. -/
theorem resetStateIsTheBootOfABlankRom : Obligations.ResetStateIsTheBootOfABlankRom := by
  have hsize : Config.PrgSize.ofLength? (List.replicate 32768 (0x00 : Byte)).length =
      some .kib32 := by rw [List.length_replicate]; rfl
  have hblank : Memory.ofBytesFrom 0 (List.replicate 32768 (0x00 : Byte)) = [] :=
    Memory.ofBytesFrom_replicate_blank 32768 0
  rw [Obligations.ResetStateIsTheBootOfABlankRom, boot_eq_applyReset hsize, constructed, hblank]
  rfl

end Sys2Proof.Machine
end

section
/-! PROOFS. The cartridge loader in summary (70_reset_and_hazards.md R247). -/

namespace Sys2Proof.Machine

/-- The bytes of the trainer that flag byte 6 announces (R247). -/
def trainerLength (f : Byte) : Nat := if f.getLsbD 2 then 512 else 0

/-- Behind 16 header bytes that begin with the magic the image must hold all that they announce; the buffers
are taken behind the trainer, PRG first (R247). -/
theorem loadImage_of_magic {image rest : List Byte} (hlength : image.length = 16 + rest.length)
    (hmagic : image.take 4 = imageMagic) (hrest : image.drop 16 = rest) :
    loadImage image =
      if rest.length < trainerLength (image.getD 6 0) + (image.getD 4 0).toNat * 16384 +
          (image.getD 5 0).toNat * 8192 then none
      else some ((rest.drop (trainerLength (image.getD 6 0))).take ((image.getD 4 0).toNat * 16384),
        ((rest.drop (trainerLength (image.getD 6 0))).drop ((image.getD 4 0).toNat * 16384)).take
          ((image.getD 5 0).toNat * 8192)) := by
  have hvalid : ¬(image.length < 16 ∨ image.take 4 ≠ imageMagic) :=
    not_or.mpr ⟨by omega, not_not.mpr hmagic⟩
  rw [loadImage, if_neg hvalid]
  simp only [hlength, Nat.add_assoc, Nat.add_lt_add_iff_left, ← hrest, List.drop_drop,
    trainerLength]

/-- The same of an image written out: bank counts `n` and `m` and flags `f` in the header's bytes 4 to 6. -/
theorem loadImage_of_header (n m f : Byte) {pad : List Byte} (hpad : pad.length = 9)
    (rest : List Byte) : loadImage ([0x4E, 0x45, 0x53, 0x1A, n, m, f] ++ pad ++ rest) =
      if rest.length < trainerLength f + n.toNat * 16384 + m.toNat * 8192 then none
      else some ((rest.drop (trainerLength f)).take (n.toNat * 16384),
        ((rest.drop (trainerLength f)).drop (n.toNat * 16384)).take (m.toNat * 8192)) := by
  have hheader : ([0x4E, 0x45, 0x53, 0x1A, n, m, f] ++ pad).length = 16 := by simp [hpad]
  exact loadImage_of_magic (by rw [List.length_append, hheader]) rfl (List.drop_left' hheader)

/-- Settles O56: an image that is not refused by its length or its magic bytes has a header, and behind it
the loader's one comparison of lengths decides. -/
theorem loaderTakesPrgThenChr : Obligations.LoaderTakesPrgThenChr := by
  refine ⟨fun image h => if_pos h, fun n m f pad trainer body hpad htrainer => ?_,
    fun n m f pad rest hpad hshort => ?_⟩
  · rw [List.append_assoc _ trainer, loadImage_of_header n m f hpad]
    have hdrop : (trainer ++ body).drop (trainerLength f) = body := by
      rw [trainerLength, ← htrainer, List.drop_left]
    have hlength : (trainer ++ body).length = trainerLength f + body.length := by
      rw [List.length_append, htrainer, trainerLength]
    simp only [hdrop, hlength, Nat.add_assoc, Nat.add_lt_add_iff_left]
  · rw [loadImage_of_header n m f hpad, trainerLength, if_pos hshort]

end Sys2Proof.Machine
end
